-- ==== Sys2Proof/Word.lean ====
section
/-! DEFINITION. The words of the block: bytes, 16-bit fields, nibbles, and the seven-byte packet (spec/30_encoding.md). -/

namespace Sys2Proof

/-- A byte of a packet or of the Frame Surface. -/
abbrev Byte := BitVec 8

/-- A 16-bit unsigned field of a packet, or a 16-bit pixel (R82: no signed quantity anywhere). -/
abbrev Half := BitVec 16

/-- What the four data lines carry at once; bit `i` is data line index `i` (R11, R57). -/
abbrev Nibble := BitVec 4

/-- Seven bytes, byte 0 first on the wire: a Command Packet (R80), and also the packet buffer
`pkt[0..6]` (R21, R140). -/
structure Packet where
  b0 : Byte
  b1 : Byte
  b2 : Byte
  b3 : Byte
  b4 : Byte
  b5 : Byte
  b6 : Byte
deriving DecidableEq, Repr

end Sys2Proof
end

