-- ==== Sys2Proof/Config.lean ====
section
/-! DEFINITION. The configuration record of R10 and R27, the reference record of spec/95_test_vectors.md, and the one
free value the spec leaves open: the order in which a fill visits the slots (R69, D18). -/

namespace Sys2Proof

/-- `DEPLOY` (R10, R181): how the block is wired. -/
inductive Deploy where
  | localDeploy     -- `Local`: decoder, assembler, interpreter and renderer
  | relaySender     -- `RelaySender`: decoder and assembler only
  | relayReceiver   -- `RelayReceiver`: interpreter and renderer only
deriving DecidableEq, Repr

/-- The configuration record (R10, R27): fixed before reset is released, constant while the block runs. The spec
leaves every field but `bpp` OPEN, so a statement holds for every record (log 3). -/
structure Config where
  width      : Nat      -- `WIDTH`, visible pixels in a row
  height     : Nat      -- `HEIGHT`, visible rows
  bpp        : Nat      -- `BPP`, bytes per pixel; the one legal value is 2
  stride     : Nat      -- `STRIDE`, bytes per scan line
  mappedSize : Nat      -- `MAPPED_SIZE`, bytes of the mapping
  tSettle    : Nat      -- `T_SETTLE`, extra steps in `S2`
  tAck       : Nat      -- `T_ACK`, extra steps in `S5b`
  deploy     : Deploy
deriving DecidableEq, Repr

/-- `CFG_A` of spec/95_test_vectors.md section 0, with that file's `T_SETTLE`, `T_ACK` and `DEPLOY`.
DESIGN CHOICE (log 3): it is only the record State.reset holds; no statement rests on it. -/
def Config.reference : Config :=
  { width := 4, height := 3, bpp := 2, stride := 10, mappedSize := 40, tSettle := 1, tAck := 0,
    deploy := .localDeploy }

/-- FREE VALUE (R69, D18: the order of the writes of a fill is OPEN). The rank that slot `i` has in fill number `k`:
the fill visits its slots in the order of their ranks. No body: every order is some rank's order (log 5). -/
opaque Config.slotRank : Nat → Nat → Nat

end Sys2Proof
end

