-- ==== Sys2Proof/Syntax.lean ====
section
/-! DEFINITION. The commands as they stand in a packet (one constructor per row of spec/opcode_table.json), the nine
Display Commands of R150, and the lines of the packet notation of R93. -/

namespace Sys2Proof

/-- One constructor per row of spec/opcode_table.json, with every field the row's packet has. The fields called
`ignored` and `reserved` are the packet's bits that the command does not read (R81, R89); they are kept so that no bit
of a packet is lost, and no meaning reads them. The five Unknown rows keep their type byte, as R150 allows (log 10). -/
inductive Instr where
  | fillBlank  (ignored : BitVec 48)                  -- R165
  | setPixel   (x y colour : Half)                    -- R166
  | fillRed    (ignored : BitVec 48)                  -- R167
  | fillGreen  (ignored : BitVec 48)                  -- R168
  | fillBlue   (ignored : BitVec 48)                  -- R169
  | fillWhite  (ignored : BitVec 48)                  -- R170
  | fillColour (ignored : BitVec 32) (colour : Half)  -- R171
  | resolution (reserved : BitVec 48)                 -- R172
  | unknown08  (code : Byte) (ignored : BitVec 48)    -- R173, types 0x08 to 0x0F
  | unknown10  (code : Byte) (ignored : BitVec 48)    -- R173, types 0x10 to 0x1F
  | unknown20  (code : Byte) (ignored : BitVec 48)    -- R173, types 0x20 to 0x3F
  | unknown40  (code : Byte) (ignored : BitVec 48)    -- R173, types 0x40 to 0x7F
  | unknown80  (code : Byte) (ignored : BitVec 48)    -- R173, types 0x80 to 0xFF
deriving DecidableEq, Repr

/-- The Display Commands of R150: nine variants; `Resolution` and `Unknown` carry nothing (D27). -/
inductive DisplayCommand where
  | fillBlank
  | setPixel (x y colour : Half)
  | fillRed
  | fillGreen
  | fillBlue
  | fillWhite
  | fillColour (colour : Half)
  | resolution
  | unknown
deriving DecidableEq, Repr

/-- A line of the packet notation of R93 (D20). -/
inductive PacketLine where
  | fillBlank
  | setPixel (x y c : Half)
  | fillRed
  | fillGreen
  | fillBlue
  | fillWhite
  | fillColour (c : Half)
  | resolution
  | raw (bytes : Packet)
deriving DecidableEq, Repr

/-- The Display Command an instruction of the table stands for (R86). -/
def Instr.command : Instr → DisplayCommand
  | .fillBlank _ => .fillBlank
  | .setPixel x y colour => .setPixel x y colour
  | .fillRed _ => .fillRed
  | .fillGreen _ => .fillGreen
  | .fillBlue _ => .fillBlue
  | .fillWhite _ => .fillWhite
  | .fillColour _ colour => .fillColour colour
  | .resolution _ => .resolution
  | .unknown08 _ _ => .unknown
  | .unknown10 _ _ => .unknown
  | .unknown20 _ _ => .unknown
  | .unknown40 _ _ => .unknown
  | .unknown80 _ _ => .unknown

end Sys2Proof
end

