-- ==== Sys2Proof/WellFormed.lean ====
section
/-! DEFINITION. Which instruction terms stand for a packet: the type byte an Unknown row carries lies in that row's
range (R86, spec/opcode_table.json). Every other field is held by its width. -/

namespace Sys2Proof

/-- The one check a term needs: an Unknown row's type byte is one of the row's. -/
def Instr.wellFormed : Instr → Bool
  | .fillBlank _ => true
  | .setPixel _ _ _ => true
  | .fillRed _ => true
  | .fillGreen _ => true
  | .fillBlue _ => true
  | .fillWhite _ => true
  | .fillColour _ _ => true
  | .resolution _ => true
  | .unknown08 code _ => decide (0x08 ≤ code.toNat ∧ code.toNat ≤ 0x0F)
  | .unknown10 code _ => decide (0x10 ≤ code.toNat ∧ code.toNat ≤ 0x1F)
  | .unknown20 code _ => decide (0x20 ≤ code.toNat ∧ code.toNat ≤ 0x3F)
  | .unknown40 code _ => decide (0x40 ≤ code.toNat ∧ code.toNat ≤ 0x7F)
  | .unknown80 code _ => decide (0x80 ≤ code.toNat)

/-- The check as a proposition. -/
abbrev Instr.WellFormed (i : Instr) : Prop := i.wellFormed = true

end Sys2Proof
end

