-- ==== Sys2Proof/Decode.lean ====
section
/-! DEFINITION. From bits to commands and back: field assembly (R82), the 56-bit view of a packet (R80), nibbles
(R83, R84), the code map as rows of mask and match (spec/opcode_table.json), the decoder, the encoder, `interpret`
(R151) and the packet notation (R93). -/

namespace Sys2Proof

/-- `u16le(lo, hi)` of R12: the 16-bit value whose high byte is `hi`. -/
def u16le (lo hi : Byte) : Half := hi ++ lo

/-- Bits 7 to 0 of a 16-bit value. -/
def lowByte (v : Half) : Byte := v.extractLsb' 0 8

/-- Bits 15 to 8 of a 16-bit value. -/
def highByte (v : Half) : Byte := v.extractLsb' 8 8

/-- The seven bytes in wire order (R57). -/
def Packet.bytes (p : Packet) : List Byte := [p.b0, p.b1, p.b2, p.b3, p.b4, p.b5, p.b6]

/-- The number `P` of R80: byte `k` is bits `8k+7` to `8k`. -/
def Packet.number (p : Packet) : BitVec 56 := p.b6 ++ p.b5 ++ p.b4 ++ p.b3 ++ p.b2 ++ p.b1 ++ p.b0

/-- The packet whose number `P` is given (R80). -/
def Packet.ofNumber (n : BitVec 56) : Packet :=
  { b0 := n.extractLsb' 0 8, b1 := n.extractLsb' 8 8, b2 := n.extractLsb' 16 8, b3 := n.extractLsb' 24 8,
    b4 := n.extractLsb' 32 8, b5 := n.extractLsb' 40 8, b6 := n.extractLsb' 48 8 }

/-- `pkt[k] <- v` (R122). The buffer has slots 0 to 6 only: for `k = 7`, which no run reaches (R32 a), nothing is
written (log 11). -/
def Packet.setByte (p : Packet) (k : BitVec 3) (v : Byte) : Packet :=
  if k = 0#3 then { p with b0 := v }
  else if k = 1#3 then { p with b1 := v }
  else if k = 2#3 then { p with b2 := v }
  else if k = 3#3 then { p with b3 := v }
  else if k = 4#3 then { p with b4 := v }
  else if k = 5#3 then { p with b5 := v }
  else if k = 6#3 then { p with b6 := v }
  else p

/-- Seven zero bytes (R40, R102, R142). -/
def Packet.zero : Packet := ⟨0#8, 0#8, 0#8, 0#8, 0#8, 0#8, 0#8⟩

/-- Nibble 0 of a byte: bits 3 to 0 (R57, R83). -/
def lowNibble (b : Byte) : Nibble := b.extractLsb' 0 4

/-- Nibble 1 of a byte: bits 7 to 4 (R57, R83). -/
def highNibble (b : Byte) : Nibble := b.extractLsb' 4 4

/-- The byte the block puts together from nibble 0 and nibble 1 (R84): `n0 + 16 * n1`. -/
def joinNibbles (n0 n1 : Nibble) : Byte := n1 ++ n0

/-- The 14 nibbles of a packet in the order they cross the data lines (R83). -/
def Packet.nibbles (p : Packet) : List Nibble := p.bytes.flatMap fun b => [lowNibble b, highNibble b]

/-- Bytes put together from nibbles taken two at a time, low nibble first (R84). -/
def joinNibbleList : List Nibble → List Byte
  | n0 :: n1 :: rest => joinNibbles n0 n1 :: joinNibbleList rest
  | _ => []

/-- `x` of a packet (R82). -/
def Packet.xField (p : Packet) : Half := u16le p.b1 p.b2

/-- `y` of a packet (R82). -/
def Packet.yField (p : Packet) : Half := u16le p.b3 p.b4

/-- `colour` of a packet (R82). -/
def Packet.colourField (p : Packet) : Half := u16le p.b5 p.b6

/-- Bits `P[55:8]`: bytes 1 to 6. -/
def Packet.bytes1to6 (p : Packet) : BitVec 48 := p.b6 ++ p.b5 ++ p.b4 ++ p.b3 ++ p.b2 ++ p.b1

/-- Bits `P[39:8]`: bytes 1 to 4. -/
def Packet.bytes1to4 (p : Packet) : BitVec 32 := p.b4 ++ p.b3 ++ p.b2 ++ p.b1

/-- The packet with a given type byte and given bits `P[55:8]`. -/
def Packet.ofType (code : Byte) (rest : BitVec 48) : Packet :=
  { b0 := code, b1 := rest.extractLsb' 0 8, b2 := rest.extractLsb' 8 8, b3 := rest.extractLsb' 16 8,
    b4 := rest.extractLsb' 24 8, b5 := rest.extractLsb' 32 8, b6 := rest.extractLsb' 40 8 }

/-- A row of spec/opcode_table.json, its mask and match cut to the type byte (the table's other bits are 0). -/
structure OpcodeRow where
  mnemonic : String
  mask     : Byte
  code     : Byte     -- the row's "match"
deriving DecidableEq, Repr

/-- spec/opcode_table.json, in its order (R86). -/
def opcodeTable : List OpcodeRow :=
  [ ⟨"FillBlank", 0xFF, 0x00⟩, ⟨"SetPixel", 0xFF, 0x01⟩, ⟨"FillRed", 0xFF, 0x02⟩, ⟨"FillGreen", 0xFF, 0x03⟩,
    ⟨"FillBlue", 0xFF, 0x04⟩, ⟨"FillWhite", 0xFF, 0x05⟩, ⟨"FillColour", 0xFF, 0x06⟩, ⟨"Resolution", 0xFF, 0x07⟩,
    ⟨"Unknown.08-0F", 0xF8, 0x08⟩, ⟨"Unknown.10-1F", 0xF0, 0x10⟩, ⟨"Unknown.20-3F", 0xE0, 0x20⟩,
    ⟨"Unknown.40-7F", 0xC0, 0x40⟩, ⟨"Unknown.80-FF", 0x80, 0x80⟩ ]

/-- A row matches a type byte (R86: the whole type byte decides). -/
def OpcodeRow.matchesType (r : OpcodeRow) (code : Byte) : Bool := code &&& r.mask == r.code

/-- The table's mnemonic of an instruction. -/
def Instr.mnemonic : Instr → String
  | .fillBlank _ => "FillBlank"
  | .setPixel _ _ _ => "SetPixel"
  | .fillRed _ => "FillRed"
  | .fillGreen _ => "FillGreen"
  | .fillBlue _ => "FillBlue"
  | .fillWhite _ => "FillWhite"
  | .fillColour _ _ => "FillColour"
  | .resolution _ => "Resolution"
  | .unknown08 _ _ => "Unknown.08-0F"
  | .unknown10 _ _ => "Unknown.10-1F"
  | .unknown20 _ _ => "Unknown.20-3F"
  | .unknown40 _ _ => "Unknown.40-7F"
  | .unknown80 _ _ => "Unknown.80-FF"

/-- The decoder on a packet: total (R86), selected by the whole type byte. -/
def decode (p : Packet) : Instr :=
  if p.b0 = 0x00#8 then .fillBlank p.bytes1to6
  else if p.b0 = 0x01#8 then .setPixel p.xField p.yField p.colourField
  else if p.b0 = 0x02#8 then .fillRed p.bytes1to6
  else if p.b0 = 0x03#8 then .fillGreen p.bytes1to6
  else if p.b0 = 0x04#8 then .fillBlue p.bytes1to6
  else if p.b0 = 0x05#8 then .fillWhite p.bytes1to6
  else if p.b0 = 0x06#8 then .fillColour p.bytes1to4 p.colourField
  else if p.b0 = 0x07#8 then .resolution p.bytes1to6
  else if p.b0.toNat ≤ 0x0F then .unknown08 p.b0 p.bytes1to6
  else if p.b0.toNat ≤ 0x1F then .unknown10 p.b0 p.bytes1to6
  else if p.b0.toNat ≤ 0x3F then .unknown20 p.b0 p.bytes1to6
  else if p.b0.toNat ≤ 0x7F then .unknown40 p.b0 p.bytes1to6
  else .unknown80 p.b0 p.bytes1to6

/-- Why a list of bytes is no packet. -/
inductive DecodeError where
  /-- A packet is always exactly 7 bytes (R80, R92): a list of another length is no packet, and must not produce any
  command (R183). Safe: nothing is executed (log 13). -/
  | notSevenBytes (length : Nat)
deriving DecidableEq, Repr

/-- Seven bytes as a packet; any other length is rejected by name (R92). -/
def packetOfBytes : List Byte → Except DecodeError Packet
  | [b0, b1, b2, b3, b4, b5, b6] => .ok ⟨b0, b1, b2, b3, b4, b5, b6⟩
  | l => .error (.notSevenBytes l.length)

/-- The decoder on any list of bytes. -/
def decodeBytes (l : List Byte) : Except DecodeError Instr := (packetOfBytes l).map decode

/-- The packet of an instruction (R80, R82): the row's type byte, then the fields. -/
def encode : Instr → Packet
  | .fillBlank ignored => .ofType 0x00#8 ignored
  | .setPixel x y colour =>
    { b0 := 0x01#8, b1 := lowByte x, b2 := highByte x, b3 := lowByte y, b4 := highByte y,
      b5 := lowByte colour, b6 := highByte colour }
  | .fillRed ignored => .ofType 0x02#8 ignored
  | .fillGreen ignored => .ofType 0x03#8 ignored
  | .fillBlue ignored => .ofType 0x04#8 ignored
  | .fillWhite ignored => .ofType 0x05#8 ignored
  | .fillColour ignored colour => .ofType 0x06#8 (colour ++ ignored)
  | .resolution reserved => .ofType 0x07#8 reserved
  | .unknown08 code ignored => .ofType code ignored
  | .unknown10 code ignored => .ofType code ignored
  | .unknown20 code ignored => .ofType code ignored
  | .unknown40 code ignored => .ofType code ignored
  | .unknown80 code ignored => .ofType code ignored

/-- `interpret` of R151: the Display Command of a packet, by its first byte. -/
def interpret (b : Packet) : DisplayCommand :=
  match b.b0.toNat with
  | 0 => .fillBlank
  | 1 => .setPixel (u16le b.b1 b.b2) (u16le b.b3 b.b4) (u16le b.b5 b.b6)
  | 2 => .fillRed
  | 3 => .fillGreen
  | 4 => .fillBlue
  | 5 => .fillWhite
  | 6 => .fillColour (u16le b.b5 b.b6)
  | 7 => .resolution
  | _ => .unknown

/-- The packet of a line of the notation of R93: 0 in every byte a command does not read. -/
def PacketLine.assemble : PacketLine → Packet
  | .fillBlank => ⟨0x00#8, 0#8, 0#8, 0#8, 0#8, 0#8, 0#8⟩
  | .setPixel x y c => ⟨0x01#8, lowByte x, highByte x, lowByte y, highByte y, lowByte c, highByte c⟩
  | .fillRed => ⟨0x02#8, 0#8, 0#8, 0#8, 0#8, 0#8, 0#8⟩
  | .fillGreen => ⟨0x03#8, 0#8, 0#8, 0#8, 0#8, 0#8, 0#8⟩
  | .fillBlue => ⟨0x04#8, 0#8, 0#8, 0#8, 0#8, 0#8, 0#8⟩
  | .fillWhite => ⟨0x05#8, 0#8, 0#8, 0#8, 0#8, 0#8, 0#8⟩
  | .fillColour c => ⟨0x06#8, 0#8, 0#8, 0#8, 0#8, lowByte c, highByte c⟩
  | .resolution => ⟨0x07#8, 0#8, 0#8, 0#8, 0#8, 0#8, 0#8⟩
  | .raw bytes => bytes

/-- The packet of a table word: the low `nbits` bits of `w`, every bit above them 0; none where the word does not fit
the 56 bits of a packet (R92, log 13). -/
def packetOfTableWord (nbits w : Nat) : Option Packet :=
  let n := w % 2 ^ nbits
  if n < 2 ^ 56 then some (Packet.ofNumber (BitVec.ofNat 56 n)) else none

/-- What the decoder reads from an instruction whose bits are `w`, numbered as spec/opcode_table.json numbers them
(R80: byte `k` is bits `8k+7` to `8k`). -/
def decodeTableWord (nbits w : Nat) : Option Instr :=
  match packetOfTableWord nbits w with
  | none => none
  | some p =>
    match decodeBytes p.bytes with
    | .ok i => some i
    | .error _ => none

end Sys2Proof
end

