-- ==== Sys2Proof/Machine/State.lean ====
section
/-! DEFINITION. The state of the block (R20), its configuration record (R27), the input levels and the event history
that the spec makes parameters of the step relation (R13, R31), the reasons to stop, and the machine after reset. -/

namespace Sys2Proof.Machine

/-- `st` (R20, R24): the source's three decoder states and `Halted`. -/
inductive Phase where
  | idle
  | awaitNibble
  | done
  | halted
deriving DecidableEq, Repr

/-- `sub` (R20, R24): which of the six numbered steps of a nibble phase comes next, step 5 in three parts. -/
inductive Sub where
  | s1
  | s2
  | s3
  | s4
  | s5a
  | s5b
  | s5c
  | s6
deriving DecidableEq, Repr

/-- The levels the environment holds on the input ports during one step (R8, R9). `true` is the logical level 1.
`pktIn` is `PKT_IN`: the packet the transport offers, or none (R182, log 15). -/
structure Inputs where
  d      : Nibble
  pclk   : Bool
  start  : Bool
  cancel : Bool
  rst    : Bool
  pktIn  : Option Packet
deriving DecidableEq, Repr

/-- The events of R13. -/
inductive Event where
  | txnStart
  | statusWrite (v : BitVec 3)
  | sample (bi : BitVec 3) (ni : BitVec 1) (n : Nibble)
  | ackRise
  | ackFall
  | packet (b : Packet)
  | packetIn (b : Packet)
  | surfWrite (off : Nat) (v : Half)
  | halt (st : Phase) (sub : Sub) (bi : BitVec 3) (ni : BitVec 1)
  | reset
deriving DecidableEq, Repr

/-- The Frame Surface (R50) as a list of (offset, byte), offsets strictly rising. An offset that is not listed has no
value: the spec says nothing about a byte that no command has written (R221, log 4). -/
abbrev Memory := List Host.Cell

/-- Everything the spec gives the block (R20), its configuration record (R27), and the model's own fields. -/
structure State where
  /-- `st` (R20). -/
  st      : Phase
  /-- `sub` (R20). -/
  sub     : Sub
  /-- `bi`, the byte index (R20). -/
  bi      : BitVec 3
  /-- `ni`, the nibble index (R20). -/
  ni      : BitVec 1
  /-- `acc`, the byte being assembled (R22). -/
  acc     : Byte
  /-- `cnt`, the wait counter (R25). -/
  cnt     : Nat
  /-- `pkt[0..6]`, the packet buffer (R21, R140). -/
  pkt     : Packet
  /-- `ack`, an output register (R8, R20). -/
  ack     : Bool
  /-- `status[2:0]`, an output register (R8, R20, R95). -/
  status  : BitVec 3
  /-- `surf`, the Frame Surface (R50). -/
  surf    : Memory
  /-- The configuration record (R10, R27). -/
  cfg     : Config
  /-- The model's own: the levels on the input ports at the next step (R31, log 1). -/
  inp     : Inputs
  /-- The model's own: the levels at the steps after the next one, in order (R31, log 1). -/
  script  : List Inputs
  /-- The model's own: the event history of R13, oldest first (log 6). -/
  history : List Event
  /-- The model's own: how many fills there were; the free fill order is applied to it (R69, log 5). -/
  fills   : Nat
deriving DecidableEq, Repr

/-- The reasons a step can stop with a fault: none. R196: the block raises no synchronous exception, has no cause
codes and records no faulting address or packet. No constructor, so no meaning can answer with one (log 16). -/
inductive Fault where
deriving DecidableEq, Repr

/-- The reasons the model gives no meaning to a step. -/
inductive Refusal where
  /-- Raised by an arm of exec that has no meaning yet; no arm of this model is one. Safe: the machine stops. -/
  | notModelled (mnemonic : String)
  /-- Raised by step where the configuration breaks one of the premises P1 to P4 (R52, R226): the launch is refused,
  not run. Safe: the machine stops (log 7). -/
  | launchPremise
  /-- Raised by `SurfWrite16` where its premise `off + 1 < MAPPED_SIZE` fails (R55, D25). Safe: the machine stops;
  under P1 to P4 no command raises it. -/
  | surfaceOutside (off : Nat)
deriving DecidableEq, Repr

/-- The three outcomes of a step of this machine. -/
abbrev Result := Host.Outcome State Fault Refusal

/-- The input levels State.reset holds: lines at rest, no packet offered, `cancel` 0 (R226). DESIGN CHOICE (log 2):
the lines are the environment's (R228). -/
def Inputs.quiet : Inputs :=
  { d := 0#4, pclk := false, start := true, cancel := false, rst := false, pktIn := none }

/-- The machine after reset at first power-up with configuration `c` (R40, R220): every register at its reset value,
no surface byte written (R221), the history empty and then `Reset`. -/
def State.powerUp (c : Config) : State :=
  { st := .idle, sub := .s1, bi := 0#3, ni := 0#1, acc := 0#8, cnt := 0, pkt := .zero, ack := false, status := 0#3,
    surf := [], cfg := c, inp := .quiet, script := [], history := [.reset], fills := 0 }

/-- The machine right after reset, with the reference configuration (log 3). -/
def State.reset : State := State.powerUp Config.reference

end Sys2Proof.Machine
end

