-- ==== Sys2Proof/Machine/Operands.lean ====
section
/-! DEFINITION. The geometry a command's operands are resolved against: the launch premises (R52), the slots (R51), the
bounds check and the byte offset of a pixel (R162, R163), the fixed colours (R164), and the free order of a fill. -/

namespace Sys2Proof.Machine

/-- Premise P1 of R52. -/
abbrev PremiseP1 (c : Config) : Prop := c.bpp = 2

/-- Premise P2 of R52. -/
abbrev PremiseP2 (c : Config) : Prop := c.stride % 2 = 0 ∧ c.width * c.bpp ≤ c.stride

/-- Premise P3 of R52. -/
abbrev PremiseP3 (c : Config) : Prop := c.mappedSize % 2 = 0

/-- Premise P4 of R52: the last visible pixel lies inside the mapping. -/
abbrev PremiseP4 (c : Config) : Prop :=
  0 < c.width → 0 < c.height → (c.height - 1) * c.stride + c.width * c.bpp ≤ c.mappedSize

/-- The launch premises (R52, R226). A configuration that breaks one is refused, not run (log 7). -/
abbrev LaunchOk (c : Config) : Prop := PremiseP1 c ∧ PremiseP2 c ∧ PremiseP3 c ∧ PremiseP4 c

/-- `NSLOTS` of R51. -/
def nslots (c : Config) : Nat := c.mappedSize / 2

/-- The bounds check of `setPixel` (R162): against the visible resolution only. -/
abbrev InBounds (c : Config) (x y : Half) : Prop := x.toNat < c.width ∧ y.toNat < c.height

/-- The byte offset of pixel `(x, y)` (R162), on natural numbers, without wrap-around (R163). -/
def pixelOffset (c : Config) (x y : Half) : Nat := x.toNat * c.bpp + y.toNat * c.stride

/-- The colour of FillBlank (R165). -/
def colourBlank : Half := 0x0000#16

/-- The colour of FillRed (R167). -/
def colourRed : Half := 0xF800#16

/-- The colour of FillGreen (R168). -/
def colourGreen : Half := 0x07E0#16

/-- The colour of FillBlue (R169). -/
def colourBlue : Half := 0x001F#16

/-- The colour of FillWhite (R170). -/
def colourWhite : Half := 0xFFFF#16

/-- The order in which fill number `k` visits the slots 0 to `n - 1`: OPEN (R69, D18). The slots sorted by their free
rank, so any order may come out and every slot is visited once (log 5). -/
def slotOrder (k n : Nat) : List Nat :=
  (List.range n).insertionSort fun i j => Config.slotRank k i ≤ Config.slotRank k j

end Sys2Proof.Machine
end

