-- ==== Sys2Proof/Machine/Ops.lean ====
section
/-! DEFINITION. The operations every step is made of: surface bytes, the write primitive (R55), the event history
(R13), `halt` (R192) and `rst` (R220) beside each other, and the environment's next levels (R7). -/

namespace Sys2Proof.Machine

/-- What the byte at an offset holds: none where nothing has been written (R221, log 4). -/
def Memory.read : Memory → Nat → Option Byte
  | [], _ => none
  | (b, w) :: rest, a => if a = b then some w else Memory.read rest a

/-- Write one byte, keeping the offsets strictly rising. -/
def Memory.write : Memory → Nat → Byte → Memory
  | [], a, v => [(a, v)]
  | (b, w) :: rest, a, v =>
    if a < b then (a, v) :: (b, w) :: rest
    else if a = b then (a, v) :: rest
    else (b, w) :: Memory.write rest a v

/-- The canonical form: offsets strictly rising. (An unlisted offset has no value, so no entry can equal it.) -/
def Memory.wf : Memory → Bool
  | [] => true
  | [_] => true
  | (a, _) :: (b, w) :: rest => decide (a < b) && Memory.wf ((b, w) :: rest)

/-- The two bytes of a 16-bit write, the low byte at the lower offset (R55, R59, D15). -/
def Memory.write16 (m : Memory) (off : Nat) (v : Half) : Memory :=
  (m.write off (lowByte v)).write (off + 1) (highByte v)

/-- The 16-bit writes of one value to a list of slots, one after the other (R160); slot `i` is at offset `2i` (R51). -/
def Memory.writeSlots (m : Memory) (slots : List Nat) (v : Half) : Memory :=
  slots.foldl (fun m i => m.write16 (2 * i) v) m

/-- `emit e` (R12, R13): append to the event history. -/
def emit (e : Event) (s : State) : State := { s with history := s.history ++ [e] }

/-- Go on with `f` where the outcome is a next state. -/
def onNext (o : Result) (f : State → Result) : Result :=
  match o with
  | .next s => f s
  | .fault r => .fault r
  | .refused r => .refused r

/-- `SurfWrite16(off, v)` (R12, R55): both bytes and the event, or, outside the mapping, `refuse` (D25). -/
def surfWrite16 (off : Nat) (v : Half) (s : State) : Result :=
  if off + 1 < s.cfg.mappedSize then
    .next (emit (.surfWrite off v) { s with surf := s.surf.write16 off v })
  else .refused (.surfaceOutside off)

/-- `SurfWrite16(2i, v)` for a list of slots, one after the other: what a fill is made of (R160). -/
def surfWriteSlots (v : Half) : List Nat → State → Result
  | [], s => .next s
  | i :: rest, s => onNext (surfWrite16 (2 * i) v s) (surfWriteSlots v rest)

/-- `halt` (R192), the block's one trap-like event: record where the sequencer stood, then `st <- Halted`, and nothing
else. Nothing is saved, because nothing resumes: the block has no return from it (R195). -/
def halt (s : State) : State := { emit (.halt s.st s.sub s.bi s.ni) s with st := .halted }

/-- `rst` (R220), the only way out of `Halted` (R126, R195): every register at its reset value; the surface and the
configuration are not written; the event history is emptied and then holds `Reset`. -/
def applyRst (s : State) : State :=
  { s with st := .idle, sub := .s1, bi := 0#3, ni := 0#1, acc := 0#8, cnt := 0, pkt := .zero, ack := false, status := 0#3,
           history := [.reset] }

/-- The environment moves on: the next levels of the script, or, where it has none, the levels stay (log 1). -/
def nextLevels (s : State) : State :=
  match s.script with
  | [] => s
  | i :: rest => { s with inp := i, script := rest }

end Sys2Proof.Machine
end

