-- ==== Sys2Proof/Machine/Flags.lean ====
section
/-! DEFINITION. The block has no flags and no condition codes (R26): no command sets or reads one. The one-bit
conditions that exist are derived from the state. -/

namespace Sys2Proof.Machine

/-- The derived predicate `halted` (R26): `st = Halted`. -/
def halted (s : State) : Bool := s.st == .halted

/-- When `ack` reads 1 (R32 b): in the sub-phases `S5b` and `S5c` of a nibble phase. -/
def ackPhase (s : State) : Bool := s.st == .awaitNibble && (s.sub == .s5b || s.sub == .s5c)

end Sys2Proof.Machine
end

