-- ==== Sys2Proof/Machine/Renderer.lean ====
section
/-! DEFINITION. The Frame Renderer's two operations (R160, R162) and the mapping from Display Commands to them (R164). -/

namespace Sys2Proof.Machine

/-- `fillWhole(colour)` (R160): every slot of the mapping. The surface does not depend on the order of the writes and
is computed in rising order; the events stand in the history in the free order (R69, D18, log 5). No write of it can fail
its premise: `2i + 1 < MAPPED_SIZE` for every slot. -/
def fillWhole (colour : Half) (s : State) : Result :=
  .next { s with
    surf := s.surf.writeSlots (List.range (nslots s.cfg)) colour
    history := s.history ++ (slotOrder s.fills (nslots s.cfg)).map fun i => .surfWrite (2 * i) colour
    fills := s.fills + 1 }

/-- `setPixel(x, y, colour)` (R162): one write where the pixel is visible, silently nothing where it is not. -/
def setPixel (x y colour : Half) (s : State) : Result :=
  if InBounds s.cfg x y then surfWrite16 (pixelOffset s.cfg x y) colour s else .next s

/-- `execute(cmd)` (R164). -/
def execute (cmd : DisplayCommand) (s : State) : Result :=
  match cmd with
  | .fillBlank => fillWhole 0x0000#16 s
  | .setPixel x y colour => setPixel x y colour s
  | .fillRed => fillWhole 0xF800#16 s
  | .fillGreen => fillWhole 0x07E0#16 s
  | .fillBlue => fillWhole 0x001F#16 s
  | .fillWhite => fillWhole 0xFFFF#16 s
  | .fillColour colour => fillWhole colour s
  | .resolution => .next s
  | .unknown => .next s

end Sys2Proof.Machine
end

