-- ==== Sys2Proof/Machine/Fill.lean ====
section
/-! DEFINITION. The six fill commands (R165, R167 to R171), each over `fillWhole` (R160). -/

namespace Sys2Proof.Machine

/-- FillBlank (R165); bytes 1 to 6 are not read. -/
def execFillBlank (_ignored : BitVec 48) (s : State) : Result := fillWhole colourBlank s

/-- FillRed (R167); bytes 1 to 6 are not read. -/
def execFillRed (_ignored : BitVec 48) (s : State) : Result := fillWhole colourRed s

/-- FillGreen (R168); bytes 1 to 6 are not read. -/
def execFillGreen (_ignored : BitVec 48) (s : State) : Result := fillWhole colourGreen s

/-- FillBlue (R169); bytes 1 to 6 are not read. -/
def execFillBlue (_ignored : BitVec 48) (s : State) : Result := fillWhole colourBlue s

/-- FillWhite (R170); bytes 1 to 6 are not read. -/
def execFillWhite (_ignored : BitVec 48) (s : State) : Result := fillWhole colourWhite s

/-- FillColour (R171); bytes 1 to 4 are not read. -/
def execFillColour (_ignored : BitVec 32) (colour : Half) (s : State) : Result := fillWhole colour s

end Sys2Proof.Machine
end

