-- ==== Sys2Proof/Machine/NoEffect.lean ====
section
/-! DEFINITION. The commands whose effect is none: Resolution (R172) and the five rows of Unknown (R173). The spec fixes
a no-op for each: not a fault, not a trap (R87, R88). -/

namespace Sys2Proof.Machine

/-- Resolution (R172): reserved; no surface write, no change of geometry, no fault. -/
def execResolution (_reserved : BitVec 48) (s : State) : Result := .next s

/-- Unknown, types 0x08 to 0x0F (R173). -/
def execUnknown08 (_code : Byte) (_ignored : BitVec 48) (s : State) : Result := .next s

/-- Unknown, types 0x10 to 0x1F (R173). -/
def execUnknown10 (_code : Byte) (_ignored : BitVec 48) (s : State) : Result := .next s

/-- Unknown, types 0x20 to 0x3F (R173). -/
def execUnknown20 (_code : Byte) (_ignored : BitVec 48) (s : State) : Result := .next s

/-- Unknown, types 0x40 to 0x7F (R173). -/
def execUnknown40 (_code : Byte) (_ignored : BitVec 48) (s : State) : Result := .next s

/-- Unknown, types 0x80 to 0xFF (R173). -/
def execUnknown80 (_code : Byte) (_ignored : BitVec 48) (s : State) : Result := .next s

end Sys2Proof.Machine
end

