-- ==== Sys2Proof/Machine/Pixel.lean ====
section
/-! DEFINITION. SetPixel (R166), over `setPixel` (R162). -/

namespace Sys2Proof.Machine

/-- SetPixel (R166). -/
def execSetPixel (x y colour : Half) (s : State) : Result := setPixel x y colour s

end Sys2Proof.Machine
end

