-- ==== Sys2Proof/Machine/Dispatch.lean ====
section
/-! DEFINITION. The meaning of every command of spec/opcode_table.json, one arm per row. -/

namespace Sys2Proof.Machine

def exec (i : Instr) (s : State) : Host.Outcome State Fault Refusal :=
  match i with
  | .fillBlank ignored => Sys2Proof.Machine.execFillBlank ignored s
  | .setPixel x y colour => Sys2Proof.Machine.execSetPixel x y colour s
  | .fillRed ignored => Sys2Proof.Machine.execFillRed ignored s
  | .fillGreen ignored => Sys2Proof.Machine.execFillGreen ignored s
  | .fillBlue ignored => Sys2Proof.Machine.execFillBlue ignored s
  | .fillWhite ignored => Sys2Proof.Machine.execFillWhite ignored s
  | .fillColour ignored colour => Sys2Proof.Machine.execFillColour ignored colour s
  | .resolution reserved => Sys2Proof.Machine.execResolution reserved s
  | .unknown08 code ignored => Sys2Proof.Machine.execUnknown08 code ignored s
  | .unknown10 code ignored => Sys2Proof.Machine.execUnknown10 code ignored s
  | .unknown20 code ignored => Sys2Proof.Machine.execUnknown20 code ignored s
  | .unknown40 code ignored => Sys2Proof.Machine.execUnknown40 code ignored s
  | .unknown80 code ignored => Sys2Proof.Machine.execUnknown80 code ignored s

end Sys2Proof.Machine
end

