-- ==== Sys2Proof/Machine/Handshake.lean ====
section
/-! DEFINITION. The Protocol Decoder (spec/40_handshake_decoder.md): one definition per transition rule. None of them
runs a command; `Done` is in Machine/Assembler.lean. -/

namespace Sys2Proof.Machine

/-- The `Idle` poll (R102). `cancel` is tested before `start` (D6). -/
def pollIdle (s : State) : State :=
  if s.inp.cancel then halt s
  else if s.inp.start = false then
    emit .txnStart
      { s with st := .awaitNibble, bi := 0#3, ni := 0#1, sub := .s1, pkt := .zero, acc := 0#8 }
  else s

/-- `S1`, wait for `pclk` high (R104), a level poll (R105). -/
def waitClockHigh (s : State) : State :=
  if s.inp.cancel then halt s
  else if s.inp.pclk then { s with sub := .s2, cnt := s.cfg.tSettle }
  else s

/-- `S2`, settle (R106). -/
def settle (s : State) : State :=
  if s.cnt = 0 then { s with sub := .s3 } else { s with cnt := s.cnt - 1 }

/-- `S3`, drive status (R110). -/
def driveStatus (s : State) : State :=
  emit (.statusWrite s.bi) { s with status := s.bi, sub := .s4 }

/-- The accumulator after a sample (R112): nibble 0 sets bits 3:0 and clears bits 7:4, nibble 1 ors into bits 7:4. -/
def accumulate (acc : Byte) (ni : BitVec 1) (d : Nibble) : Byte :=
  if ni = 0#1 then d.zeroExtend 8 else acc ||| (d.zeroExtend 8 <<< 4)

/-- `S4`, sample (R112): all four data lines at once (D9). -/
def sampleNibble (s : State) : State :=
  emit (.sample s.bi s.ni s.inp.d) { s with acc := accumulate s.acc s.ni s.inp.d, sub := .s5a }

/-- `S5a`, ack high (R114). -/
def ackHigh (s : State) : State :=
  emit .ackRise { s with ack := true, cnt := s.cfg.tAck, sub := .s5b }

/-- `S5b`, ack hold (R116). -/
def ackHold (s : State) : State :=
  if s.cnt = 0 then { s with sub := .s5c } else { s with cnt := s.cnt - 1 }

/-- `S5c`, ack low (R118). -/
def ackLow (s : State) : State :=
  emit .ackFall { s with ack := false, sub := .s6 }

/-- Advance, the end of a nibble phase (R122). -/
def advance (s : State) : State :=
  if s.ni = 0#1 then { s with ni := 1#1, sub := .s1 }
  else if s.bi < 6#3 then
    { s with pkt := s.pkt.setByte s.bi s.acc, bi := s.bi + 1#3, ni := 0#1, sub := .s1 }
  else { s with pkt := s.pkt.setByte s.bi s.acc, st := .done }

/-- `S6`, wait for `pclk` low, then advance (R120). -/
def waitClockLow (s : State) : State :=
  if s.inp.cancel then halt s
  else if s.inp.pclk = false then advance s
  else s

/-- One step of a nibble phase (R100): the sub-phase that comes next. -/
def nibbleStep (s : State) : State :=
  match s.sub with
  | .s1 => waitClockHigh s
  | .s2 => settle s
  | .s3 => driveStatus s
  | .s4 => sampleNibble s
  | .s5a => ackHigh s
  | .s5b => ackHold s
  | .s5c => ackLow s
  | .s6 => waitClockLow s

end Sys2Proof.Machine
end

