-- ==== Sys2Proof/Machine/Assembler.lean ====
section
/-! DEFINITION. Where a packet is run: the dispatch of a completed packet (R144), and the packet a relay receiver takes
from `PKT_IN` (R182). -/

namespace Sys2Proof.Machine

/-- The fetched packet: the seven slots, read all at once (R21, R62). -/
def fetchedPacket (s : State) : Packet := s.pkt

/-- Dispatch (R124, R144): the packet appears on `PKT_OUT` (the event `Packet`, R180); wired `Local` its command runs
to completion in the same step; then `st <- Idle`. A `RelaySender` renders nothing. No port is read. -/
def dispatchPacket (s : State) : Result :=
  let shown := emit (.packet (fetchedPacket s)) s
  let ran := if s.cfg.deploy = .localDeploy then exec (decode (fetchedPacket s)) shown else .next shown
  onNext ran fun t => .next { t with st := .idle }

/-- The packet leaves `PKT_IN` and is recorded (R182, log 15). -/
def acceptPacket (b : Packet) (s : State) : State :=
  emit (.packetIn b) { s with inp := { s.inp with pktIn := none } }

/-- The step of a `RelayReceiver` (R182): `cancel` is tested before the packet is taken (D26). Where the transport
offers nothing there is no step and nothing changes (R181, log 8). -/
def pktInStep (s : State) : Result :=
  match s.inp.pktIn with
  | none => .next s
  | some b => if s.inp.cancel then .next (halt s) else exec (decode b) (acceptPacket b s)

end Sys2Proof.Machine
end

