-- ==== Sys2Proof/Machine/Receiver.lean ====
section
/-! DEFINITION. One step of the receiver block `RX` (R6, R7), and the placing of a packet where the next step runs it. -/

namespace Sys2Proof.Machine

/-- The step of a block whose digital lines are connected (`Local`, `RelaySender`; R100). -/
def lineStep (s : State) : Result :=
  match s.st with
  | .idle => .next (pollIdle s)
  | .awaitNibble => .next (nibbleStep s)
  | .done => dispatchPacket s
  | .halted => .next s

/-- One step of `RX`. `rst` wins over everything (R194 a, R220). `Halted` has no step: nothing changes (R126, log 8). A
`RelayReceiver` never polls its lines (R102, R181). -/
def rxStep (s : State) : Result :=
  if s.inp.rst then .next (applyRst s)
  else if s.st = .halted then .next s
  else if s.cfg.deploy = .relayReceiver then pktInStep s
  else lineStep s

/-- One step of the machine: `RX`, then the environment's next levels (R7, log 1). A configuration that breaks a
premise is refused, not run (R52, R226, log 7). -/
def machineStep (s : State) : Result :=
  if LaunchOk s.cfg then onNext (rxStep s) fun t => .next (nextLevels t)
  else .refused .launchPremise

/-- `s` with packet `b` complete in the buffer and about to be dispatched: `st = Done`, wired `Local`, `rst` low
(log 12). Nothing else is changed; the configuration's geometry is not mended. -/
def placePacket (b : Packet) (s : State) : State :=
  { s with st := .done, pkt := b, cfg := { s.cfg with deploy := .localDeploy }, inp := { s.inp with rst := false } }

/-- `placePacket` of a table word; a word that is no packet leaves `s` as it is (log 13). -/
def placeTableWord (s : State) (nbits w : Nat) : State :=
  match packetOfTableWord nbits w with
  | some b => placePacket b s
  | none => s

end Sys2Proof.Machine
end

