-- ==== Sys2Proof/Safety.lean ====
section
/-! DEFINITION. The terms statements use: runs, the invariant of R32, what outside agents observe (R30), the obligations
of the environment (R190, R183, R232 to R237), and the levels of a well-kept transaction (R240). -/

namespace Sys2Proof.Machine

/-! ### Outcomes and runs -/

/-- The next state of an outcome, if it is one. -/
def stateAfter : Result → Option State
  | .next s => some s
  | .fault _ => none
  | .refused _ => none

/-- `n` steps, stopping at the first refusal. -/
def run : Nat → State → Result
  | 0, s => .next s
  | n + 1, s => onNext (step s) (run n)

/-- The input levels of the steps to come: the ones at the ports, then the script (log 1). -/
def levels (s : State) : List Inputs := s.inp :: s.script

/-- `s` with these input levels to come; the list is not empty where it is used. -/
def withLevels (l : List Inputs) (s : State) : State :=
  match l with
  | [] => s
  | i :: rest => { s with inp := i, script := rest }

/-! ### The bytes of a transaction in progress -/

/-- The nibbles of the running transaction after one more event: a start forgets them, a sample adds one (R13). -/
def takeNibble (l : List Nibble) : Event → List Nibble
  | .txnStart => []
  | .sample _ _ n => l ++ [n]
  | _ => l

/-- The nibbles that the block has sampled since the last start of a transaction that the history records, oldest
first. -/
def transactionNibbles (history : List Event) : List Nibble := history.foldl takeNibble []

/-- Whether the nibble of the phase in progress has been sampled (R24, R112): in the sub-phases after `S4`. -/
def sampled (s : State) : Bool := [Sub.s5a, .s5b, .s5c, .s6].contains s.sub

/-! ### The invariant (R32, and what the model adds to it) -/

/-- The clauses of R32 with, beside them, what a run keeps of the other registers, the wiring, the surface and the
history. The letters are R32's; the clauses without a letter are read from the rules named. -/
structure BlockInv (s : State) : Prop where
  /-- The launch premises hold (R52, R226). -/
  launch : LaunchOk s.cfg
  /-- (a) `bi <= 6`. -/
  bi_le : s.bi.toNat ≤ 6
  /-- (b), (c) `ack = 1` exactly in `S5b` and `S5c` of a nibble phase. -/
  ack_iff : s.ack = ackPhase s
  /-- (d), first half: in a nibble phase slot `k` before `bi` holds completed byte `k` of this transaction, the byte put
  together (R84) from the two nibbles that the history records as sampled for it. -/
  slots_done : s.st = .awaitNibble → ∀ k, k < s.bi.toNat →
    s.pkt.bytes[k]? = (joinNibbleList (transactionNibbles s.history))[k]?
  /-- (d), second half: in a nibble phase the slots from `bi` on are still 0. -/
  slots_zero : s.st = .awaitNibble → ∀ k, s.bi.toNat ≤ k → k < 7 → s.pkt.bytes[k]? = some 0
  /-- (e) `status <= 6`. -/
  status_le : s.status.toNat ≤ 6
  /-- (f) From `S4` to `S6` of a nibble phase, `status = bi`. -/
  status_eq : s.st = .awaitNibble → s.sub ∈ [Sub.s4, .s5a, .s5b, .s5c, .s6] → s.status = s.bi
  /-- All through nibble 1 of a byte, `status = bi` (R110). -/
  status_second : s.st = .awaitNibble → s.ni = 1 → s.status = s.bi
  /-- The sequencer counts the nibbles: two for each byte before `bi`, `ni` for this one, and the one just sampled
  (R24, R122). -/
  nibble_count : s.st = .awaitNibble →
    (transactionNibbles s.history).length = 2 * s.bi.toNat + s.ni.toNat + if sampled s then 1 else 0
  /-- From the sample of nibble 0 to the sample of nibble 1, bits 7:4 of `acc` are 0 (R112). -/
  acc_low : s.st = .awaitNibble →
    (s.ni = 0 ∧ s.sub ∈ [Sub.s5a, .s5b, .s5c, .s6]) ∨ (s.ni = 1 ∧ s.sub ∈ [Sub.s1, .s2, .s3, .s4]) →
    s.acc.toNat < 16
  /-- In that time `acc` is the nibble that was sampled last (R112). -/
  acc_first : s.st = .awaitNibble →
    (s.ni = 0 ∧ s.sub ∈ [Sub.s5a, .s5b, .s5c, .s6]) ∨ (s.ni = 1 ∧ s.sub ∈ [Sub.s1, .s2, .s3, .s4]) →
    ∃ earlier n0, transactionNibbles s.history = earlier ++ [n0] ∧ s.acc = n0.zeroExtend 8
  /-- After the sample of nibble 1 `acc` is the byte of the last two nibbles (R84, R112). -/
  acc_second : s.st = .awaitNibble → s.ni = 1 → sampled s = true →
    ∃ earlier n0 n1, transactionNibbles s.history = earlier ++ [n0, n1] ∧ s.acc = joinNibbles n0 n1
  /-- In `Done` the buffer holds the seven bytes of the transaction's nibbles (R122, R143). -/
  packet_done : s.st = .done → s.pkt.bytes = joinNibbleList (transactionNibbles s.history)
  /-- `cnt` stays within its range (R20). -/
  cnt_le : s.cnt ≤ max s.cfg.tSettle s.cfg.tAck
  /-- The sequencer of a `RelayReceiver` never leaves `Idle` but to halt (R181). -/
  receiver : s.cfg.deploy = .relayReceiver → s.st = .idle ∨ s.st = .halted
  /-- The surface is in canonical form. -/
  surf_wf : s.surf.wf = true
  /-- No byte of the surface lies outside the mapping (R50). -/
  surf_in : ∀ c ∈ s.surf, c.1 < s.cfg.mappedSize

/-! ### What outside agents see (R30) -/

/-- What the transmitter sees: `ack` and `status`. -/
def transmitterView (s : State) : Bool × BitVec 3 := (s.ack, s.status)

/-- What the packet transport sees: the packets on `PKT_OUT` since reset (R180). -/
def transportView (s : State) : List Packet :=
  s.history.filterMap fun e => match e with
    | .packet b => some b
    | _ => none

/-- The packets taken from `PKT_IN` since reset (R182). -/
def takenPackets (s : State) : List Packet :=
  s.history.filterMap fun e => match e with
    | .packetIn b => some b
    | _ => none

/-- What the display scan-out sees: the surface. -/
def scanOutView (s : State) : Memory := s.surf

/-- What the host sees: whether the block has halted. -/
def hostView (s : State) : Bool := halted s

/-! ### Obligations of the environment -/

/-- The `HOST`'s obligation (R190, D8): once `cancel` is 1 it stays 1 until `rst`. -/
def HostKeepsCancel : List Inputs → Prop
  | i :: j :: rest =>
    (i.cancel = true → i.rst = false → j.rst = false → j.cancel = true) ∧ HostKeepsCancel (j :: rest)
  | _ => True

/-- What is assumed of `NET` (R183, D26): the packets a receiver took are a subsequence of those a sender sent.
DESIGN CHOICE (log 20): R183 does not say whether its two sequences run across an `rst` of one of the blocks. Here each
runs from its own block's last reset, because `rst` empties the history; so this is meant for runs in which neither block
is reset after the sender's first packet. -/
def NetLosesOnly (sender receiver : State) : Prop := (takenPackets receiver).Sublist (transportView sender)

/-- Levels at which neither `HOST` input is 1. -/
abbrev Undisturbed (i : Inputs) : Prop := i.cancel = false ∧ i.rst = false

/-- The levels of one nibble phase of a transmitter that keeps its obligations, as the block in `S1` reads them, one
entry a step (log 17): the clock low while the block waits; then the clock high and the nibble on `d` from the `S1` step
that reads it until `ack` has risen (R233, R234: `S1`, `T_SETTLE + 1` steps of `S2`, `S3`, `S4`, `S5a`); then anything
while `ack` is 1 (R236); then the clock still high for a while; then a low that `S6` reads (R235). -/
def NibbleLevels (c : Config) (n : Nibble) (l : List Inputs) : Prop :=
  ∃ low held acked high : List Inputs, ∃ last : Inputs,
    l = low ++ held ++ acked ++ high ++ [last] ∧
    (∀ i ∈ l, Undisturbed i) ∧
    (∀ i ∈ low, i.pclk = false) ∧
    held.length = c.tSettle + 5 ∧ (∀ i ∈ held, i.pclk = true ∧ i.d = n) ∧
    acked.length = c.tAck + 2 ∧
    (∀ i ∈ high, i.pclk = true) ∧ last.pclk = false

/-- The levels of nibbles sent one after the other (R237). -/
def NibbleListLevels (c : Config) : List Nibble → List Inputs → Prop
  | [], l => l = []
  | n :: rest, l => ∃ l₁ l₂, l = l₁ ++ l₂ ∧ NibbleLevels c n l₁ ∧ NibbleListLevels c rest l₂

/-- The levels of a whole transaction of packet `b` as a block in `Idle` reads them (R232, R237): `start` high while
the transmitter is between transactions, a poll that reads it low, the 14 nibbles, and one step for the dispatch. -/
def TransactionLevels (c : Config) (b : Packet) (l : List Inputs) : Prop :=
  ∃ between nibbles : List Inputs, ∃ first last : Inputs,
    l = between ++ [first] ++ nibbles ++ [last] ∧
    (∀ i ∈ between, Undisturbed i ∧ i.start = true) ∧
    Undisturbed first ∧ first.start = false ∧
    NibbleListLevels c b.nibbles nibbles ∧ last.rst = false

/-! ### What the block records -/

/-- The events of one nibble phase (R240). -/
def nibbleEvents (bi : BitVec 3) (ni : BitVec 1) (n : Nibble) : List Event :=
  [.statusWrite bi, .sample bi ni n, .ackRise, .ackFall]

/-- The events of one byte: its two nibble phases (R240). -/
def byteEvents (k : BitVec 3) (b : Byte) : List Event :=
  nibbleEvents k 0 (lowNibble b) ++ nibbleEvents k 1 (highNibble b)

/-- The events of a transaction up to the dispatch, in order (R240). -/
def transactionEvents (b : Packet) : List Event :=
  [.txnStart] ++ byteEvents 0 b.b0 ++ byteEvents 1 b.b1 ++ byteEvents 2 b.b2 ++ byteEvents 3 b.b3 ++
    byteEvents 4 b.b4 ++ byteEvents 5 b.b5 ++ byteEvents 6 b.b6 ++ [.packet b]

/-! ### Shapes shared by statements -/

/-- Instruction `i` sets every slot of the mapping to `colour` (R160) and completes at every state: the bytes of each
slot, every other byte as before, one write event per slot in some order, nothing else changed, and a second application
leaves the surface as it is. -/
def FillsWholeMapping (i : Instr) (colour : Half) : Prop :=
  ∀ s : State, ∃ t : State, exec i s = .next t ∧
    (∀ k, k < s.cfg.mappedSize / 2 →
      t.surf.read (2 * k) = some (lowByte colour) ∧ t.surf.read (2 * k + 1) = some (highByte colour)) ∧
    (∀ a, 2 * (s.cfg.mappedSize / 2) ≤ a → t.surf.read a = s.surf.read a) ∧
    (∃ order : List Nat, order.Perm (List.range (s.cfg.mappedSize / 2)) ∧
      t.history = s.history ++ order.map fun k => .surfWrite (2 * k) colour) ∧
    t = { s with surf := t.surf, history := t.history, fills := s.fills + 1 } ∧
    (∀ u, exec i t = .next u → ∀ a, u.surf.read a = t.surf.read a)

/-- The block polls its lines at this step: it is not wired as a `RelayReceiver` (R102, R181), `rst` is low (R220) and
the launch premises hold (R52). -/
abbrev LinesLive (s : State) : Prop := LaunchOk s.cfg ∧ s.inp.rst = false ∧ s.cfg.deploy ≠ .relayReceiver

/-- The block is in sub-phase `sub` of a nibble phase and takes its step. -/
abbrev InSub (s : State) (sub : Sub) : Prop := LinesLive s ∧ s.st = .awaitNibble ∧ s.sub = sub

/-- `s` with its input levels changed by `g`. -/
def mapInputs (g : Inputs → Inputs) (s : State) : State := { s with inp := g s.inp }

/-- The step does not read what `g` overwrites: overwriting it before the step changes nothing but the levels that are
still held after it. -/
def StepIgnores (g : Inputs → Inputs) (s : State) : Prop :=
  onNext (step (mapInputs g s)) (fun t => .next (mapInputs g t)) = onNext (step s) (fun t => .next (mapInputs g t))

end Sys2Proof.Machine
end

