-- ==== Sys2Proof/Certificates/Slice0/Obligations.lean ====
section
/-! DEFINITION. The statements about the model, each a Prop; none is proved here. A rule the spec marks [derived: …] is
an inference of the spec's own: a statement of it has basis 'derived' and its docstring says so. In every statement about a
step, `nextLevels` is the environment's move after the block's (log 1): the model's form of the levels of the spec's step. -/

open Sys2Proof Sys2Proof.Machine

/-! ### Encoding -/

/-- Words of spec/95_test_vectors.md L2.1, read bit by bit, decode to the commands that table gives. -/
def Obligations.SpecWordsDecode : Prop :=
  decodeTableWord 56 0x00000000000000 = some (.fillBlank 0) ∧
  decodeTableWord 56 0xABCD0002000301 = some (.setPixel 3 2 0xABCD) ∧
  decodeTableWord 56 0x01000001010001 = some (.setPixel 256 1 0x0100) ∧
  decodeTableWord 56 0x00000000000002 = some (.fillRed 0) ∧
  decodeTableWord 56 0x00000000000003 = some (.fillGreen 0) ∧
  decodeTableWord 56 0x00000000000004 = some (.fillBlue 0) ∧
  decodeTableWord 56 0x00000000000005 = some (.fillWhite 0) ∧
  decodeTableWord 56 0x80010000000006 = some (.fillColour 0 0x8001) ∧
  decodeTableWord 56 0x00000000000007 = some (.resolution 0) ∧
  decodeTableWord 56 0x06050403020108 = some (.unknown08 0x08 0x060504030201) ∧
  decodeTableWord 56 0x000000000000FF = some (.unknown80 0xFF 0)

/-- Decoding the packet of a well-formed instruction gives it back, with every field at every value. -/
def Obligations.DecodeUndoesEncode : Prop :=
  ∀ i : Instr, i.WellFormed → decode (encode i) = i

/-- Every packet decodes to a well-formed instruction, and encoding that instruction gives the packet back: no bit of a
packet is lost, not even one that its command does not read (log 10). -/
def Obligations.EncodeUndoesDecode : Prop :=
  ∀ p : Packet, (decode p).WellFormed ∧ encode (decode p) = p

/-- R86: of the rows of spec/opcode_table.json exactly one matches a packet's type byte, and it is the row of the
instruction the packet decodes to. -/
def Obligations.ExactlyOneTableRowMatches : Prop :=
  ∀ p : Packet, (opcodeTable.filter fun r => r.matchesType p.b0).map (·.mnemonic) = [(decode p).mnemonic]

/-- R151: `interpret`, case by case over the type byte, the fields as numbers. -/
def Obligations.InterpretFollowsTheCodeMap : Prop :=
  ∀ b : Packet,
    (b.b0.toNat = 0 → interpret b = .fillBlank) ∧
    (b.b0.toNat = 1 → ∃ x y c : Half, interpret b = .setPixel x y c ∧
      x.toNat = b.b1.toNat + 256 * b.b2.toNat ∧ y.toNat = b.b3.toNat + 256 * b.b4.toNat ∧
      c.toNat = b.b5.toNat + 256 * b.b6.toNat) ∧
    (b.b0.toNat = 2 → interpret b = .fillRed) ∧
    (b.b0.toNat = 3 → interpret b = .fillGreen) ∧
    (b.b0.toNat = 4 → interpret b = .fillBlue) ∧
    (b.b0.toNat = 5 → interpret b = .fillWhite) ∧
    (b.b0.toNat = 6 → ∃ c : Half, interpret b = .fillColour c ∧ c.toNat = b.b5.toNat + 256 * b.b6.toNat) ∧
    (b.b0.toNat = 7 → interpret b = .resolution) ∧
    (8 ≤ b.b0.toNat → interpret b = .unknown)

/-- The decoder and `interpret` (R151), written apart, name the same Display Command. -/
def Obligations.DecoderAgreesWithInterpret : Prop :=
  ∀ b : Packet, (decode b).command = interpret b

/-- R80's view of a packet as the number `P`: each field is the slice of `P` the table gives, and the number and the
seven bytes determine each other. -/
def Obligations.FieldsAreSlicesOfTheNumber : Prop :=
  ∀ p : Packet, p.number.extractLsb' 0 8 = p.b0 ∧ p.number.extractLsb' 8 16 = p.xField ∧
    p.number.extractLsb' 24 16 = p.yField ∧ p.number.extractLsb' 40 16 = p.colourField ∧
    Packet.ofNumber p.number = p

/-- R84 with R83: a byte put together from its two nibbles is that byte, with the value `n0 + 16 * n1`; a packet is cut
into 14 nibbles, and they rejoin to its seven bytes. -/
def Obligations.NibblesRejoinToTheirBytes : Prop :=
  (∀ n0 n1 : Nibble, (joinNibbles n0 n1).toNat = n0.toNat + 16 * n1.toNat ∧
    lowNibble (joinNibbles n0 n1) = n0 ∧ highNibble (joinNibbles n0 n1) = n1) ∧
  (∀ p : Packet, p.nibbles.length = 14 ∧ joinNibbleList p.nibbles = p.bytes)

/-- R92: a list of bytes is decoded exactly when it has 7 bytes, and any other is rejected by name. -/
def Obligations.OnlySevenBytesDecode : Prop :=
  ∀ l : List Byte, (l.length = 7 ↔ ∃ i, decodeBytes l = .ok i) ∧
    (l.length ≠ 7 → decodeBytes l = .error (.notSevenBytes l.length))

/-- R93: each line of the packet notation assembles to a packet of its own command. -/
def Obligations.NotationAssemblesItsCommand : Prop :=
  interpret PacketLine.fillBlank.assemble = .fillBlank ∧
  (∀ x y c, interpret (PacketLine.setPixel x y c).assemble = .setPixel x y c) ∧
  interpret PacketLine.fillRed.assemble = .fillRed ∧
  interpret PacketLine.fillGreen.assemble = .fillGreen ∧
  interpret PacketLine.fillBlue.assemble = .fillBlue ∧
  interpret PacketLine.fillWhite.assemble = .fillWhite ∧
  (∀ c, interpret (PacketLine.fillColour c).assemble = .fillColour c) ∧
  interpret PacketLine.resolution.assemble = .resolution ∧
  (∀ b, (PacketLine.raw b).assemble = b)

/-! ### The commands -/

/-- R165, R167 to R170: the type byte alone selects each fixed fill; it completes at every state, whatever its other
bytes; every slot of the mapping holds its constant afterwards, nothing outside the slots changes, nothing but the
surface and the history of writes changes, and applying it again changes nothing. -/
def Obligations.FixedFillsSetEverySlot : Prop :=
  (∀ ignored, FillsWholeMapping (.fillBlank ignored) 0x0000) ∧
  (∀ ignored, FillsWholeMapping (.fillRed ignored) 0xF800) ∧
  (∀ ignored, FillsWholeMapping (.fillGreen ignored) 0x07E0) ∧
  (∀ ignored, FillsWholeMapping (.fillBlue ignored) 0x001F) ∧
  (∀ ignored, FillsWholeMapping (.fillWhite ignored) 0xFFFF) ∧
  (∀ p : Packet, (p.b0 = 0 → ∃ g, decode p = .fillBlank g) ∧ (p.b0 = 2 → ∃ g, decode p = .fillRed g) ∧
    (p.b0 = 3 → ∃ g, decode p = .fillGreen g) ∧ (p.b0 = 4 → ∃ g, decode p = .fillBlue g) ∧
    (p.b0 = 5 → ∃ g, decode p = .fillWhite g))

/-- R171: FillColour completes at every state and sets every slot of the mapping to the packet's colour; with a fixed
colour it has the effect of the fixed fill. -/
def Obligations.FillColourSetsEverySlot : Prop :=
  (∀ ignored colour, FillsWholeMapping (.fillColour ignored colour) colour) ∧
  (∀ p : Packet, p.b0 = 6 → ∃ g c, decode p = .fillColour g c ∧ c.toNat = p.b5.toNat + 256 * p.b6.toNat) ∧
  (∀ g g' s, exec (.fillColour g 0x0000) s = exec (.fillBlank g') s ∧
    exec (.fillColour g 0xF800) s = exec (.fillRed g') s ∧ exec (.fillColour g 0x07E0) s = exec (.fillGreen g') s ∧
    exec (.fillColour g 0x001F) s = exec (.fillBlue g') s ∧ exec (.fillColour g 0xFFFF) s = exec (.fillWhite g') s)

/-- R166 with R162: under the launch premises SetPixel completes at every state. In bounds it writes the two bytes of its
colour at `x * BPP + y * STRIDE`, an even offset, and records the write; out of bounds it changes nothing at all. Every other byte and every
other field of the state is as before. -/
def Obligations.SetPixelWritesItsPixelOrNothing : Prop :=
  (∀ (x y c : Half) (s : State), LaunchOk s.cfg → ∃ t, exec (.setPixel x y c) s = .next t ∧
    (x.toNat < s.cfg.width ∧ y.toNat < s.cfg.height →
      (x.toNat * s.cfg.bpp + y.toNat * s.cfg.stride) % 2 = 0 ∧
      t.surf.read (x.toNat * s.cfg.bpp + y.toNat * s.cfg.stride) = some (lowByte c) ∧
      t.surf.read (x.toNat * s.cfg.bpp + y.toNat * s.cfg.stride + 1) = some (highByte c) ∧
      (∀ a, a ≠ x.toNat * s.cfg.bpp + y.toNat * s.cfg.stride →
        a ≠ x.toNat * s.cfg.bpp + y.toNat * s.cfg.stride + 1 → t.surf.read a = s.surf.read a) ∧
      t.history = s.history ++ [.surfWrite (x.toNat * s.cfg.bpp + y.toNat * s.cfg.stride) c] ∧
      t = { s with surf := t.surf, history := t.history }) ∧
    (¬ (x.toNat < s.cfg.width ∧ y.toNat < s.cfg.height) → t = s)) ∧
  (∀ p : Packet, p.b0 = 1 → ∃ x y c, decode p = .setPixel x y c ∧ x.toNat = p.b1.toNat + 256 * p.b2.toNat ∧
    y.toNat = p.b3.toNat + 256 * p.b4.toNat ∧ c.toNat = p.b5.toNat + 256 * p.b6.toNat)

/-- R172: Resolution completes at every state and leaves it as it is, whatever its other bytes. -/
def Obligations.ResolutionHasNoEffect : Prop :=
  (∀ reserved s, exec (.resolution reserved) s = .next s) ∧
  (∀ p : Packet, p.b0 = 7 → ∃ r, decode p = .resolution r)

/-- R173: every packet whose type is from 8 to 255 decodes to an Unknown row; each Unknown row completes at every state
and leaves it as it is; and a block that dispatches one goes on to `Idle`, its surface as before. -/
def Obligations.UnknownHasNoEffect : Prop :=
  (∀ code ignored s, exec (.unknown08 code ignored) s = .next s ∧ exec (.unknown10 code ignored) s = .next s ∧
    exec (.unknown20 code ignored) s = .next s ∧ exec (.unknown40 code ignored) s = .next s ∧
    exec (.unknown80 code ignored) s = .next s) ∧
  (∀ p : Packet, 8 ≤ p.b0.toNat → (decode p).command = .unknown) ∧
  (∀ s, LinesLive s → s.st = .done → 8 ≤ s.pkt.b0.toNat →
    ∃ t, step s = .next t ∧ t.st = .idle ∧ t.surf = s.surf)

/-- R164: exec is `execute` of the Display Command, whose operations are those of the mapping. -/
def Obligations.ExecFollowsTheCommandMapping : Prop :=
  (∀ i s, exec i s = execute i.command s) ∧
  (∀ s, execute .fillBlank s = fillWhole 0x0000 s ∧ execute .fillRed s = fillWhole 0xF800 s ∧
    execute .fillGreen s = fillWhole 0x07E0 s ∧ execute .fillBlue s = fillWhole 0x001F s ∧
    execute .fillWhite s = fillWhole 0xFFFF s ∧ (∀ c, execute (.fillColour c) s = fillWhole c s) ∧
    (∀ x y c, execute (.setPixel x y c) s = setPixel x y c s) ∧
    execute .resolution s = .next s ∧ execute .unknown s = .next s)

/-- The frame of every command (43_frame_renderer.md section 3): it changes nothing but the surface and the record of its
writes, the history grows by surface writes only, and, under the launch premises, each of those is at an even offset inside
the mapping (20_memory.md section 3). -/
def Obligations.CommandsChangeOnlyTheSurface : Prop :=
  ∀ i s t, exec i s = .next t →
    t = { s with surf := t.surf, history := t.history, fills := t.fills } ∧
    ∃ es, t.history = s.history ++ es ∧
      ∀ e ∈ es, ∃ off v, e = .surfWrite off v ∧ off + 1 < s.cfg.mappedSize ∧ (LaunchOk s.cfg → off % 2 = 0)

/-- R81: packets that agree on the type byte and on the fields their command reads have the same effect. -/
def Obligations.FieldsNotReadHaveNoEffect : Prop :=
  ∀ (p q : Packet) (s : State), p.b0 = q.b0 →
    (p.b0 = 1 → p.xField = q.xField ∧ p.yField = q.yField ∧ p.colourField = q.colourField) →
    (p.b0 = 6 → p.colourField = q.colourField) →
    exec (decode p) s = exec (decode q) s

/-- Idempotency, an inference the spec marks as its own (20_memory.md section 4): a command applied twice leaves the
surface as applied once. -/
def Obligations.CommandsAreIdempotent : Prop :=
  ∀ i s t u, s.surf.wf = true → exec i s = .next t → exec i t = .next u → u.surf = t.surf

/-- The order of a fill is open and does not matter (20_memory.md section 7, 92_eei_decisions.md D18; the model's free order
and its counter `fills` are log 5): in whatever order the slots are written one by one with
`SurfWrite16`, no write is refused and the surface afterwards is the one the fill leaves; and every fill the model makes is such a sequence of writes. -/
def Obligations.FillOrderDoesNotMatter : Prop :=
  (∀ (order : List Nat) (c : Half) (s : State), s.surf.wf = true → order.Perm (List.range (s.cfg.mappedSize / 2)) →
    ∃ u, surfWriteSlots c order s = .next u ∧ u.history = s.history ++ order.map (fun k => .surfWrite (2 * k) c) ∧
      ∀ g t, exec (.fillColour g c) s = .next t → u.surf = t.surf) ∧
  (∀ g c s, s.surf.wf = true → ∃ order u, order.Perm (List.range (s.cfg.mappedSize / 2)) ∧
    surfWriteSlots c order s = .next u ∧ exec (.fillColour g c) s = .next { u with fills := s.fills + 1 })

/-- SetPixel can reach only the bytes of visible pixels (20_memory.md section 1, 70_reset_and_hazards.md section 4): line
padding, off-screen rows and the rest of the mapping keep their bytes. -/
def Obligations.SetPixelReachesOnlyVisiblePixels : Prop :=
  ∀ (x y c : Half) s t a, exec (.setPixel x y c) s = .next t →
    (∀ X Y, X < s.cfg.width → Y < s.cfg.height →
      a ≠ X * s.cfg.bpp + Y * s.cfg.stride ∧ a ≠ X * s.cfg.bpp + Y * s.cfg.stride + 1) →
    t.surf.read a = s.surf.read a

/-- Every command completes under the launch premises (43_frame_renderer.md section 5). -/
def Obligations.EveryCommandCompletes : Prop :=
  ∀ i s, LaunchOk s.cfg → ∃ t, exec i s = .next t

/-- R55: the write primitive writes the low byte at the offset and the high byte after it, and records the write; outside
the mapping the model refuses. -/
def Obligations.SurfWriteStoresLowByteFirst : Prop :=
  ∀ off v s,
    (off + 1 < s.cfg.mappedSize → ∃ t, surfWrite16 off v s = .next t ∧
      t.surf.read off = some (v.extractLsb' 0 8) ∧ t.surf.read (off + 1) = some (v.extractLsb' 8 8) ∧
      (∀ a, a ≠ off → a ≠ off + 1 → t.surf.read a = s.surf.read a) ∧
      t.history = s.history ++ [.surfWrite off v] ∧ t = { s with surf := t.surf, history := t.history }) ∧
    (¬ off + 1 < s.cfg.mappedSize → surfWrite16 off v s = .refused (.surfaceOutside off))

/-! ### The Protocol Decoder, one statement per transition -/

/-- R102: the `Idle` poll. `pclk` and `d` do not stand in it; `ack` and `status` are as before. -/
def Obligations.IdlePollStartsHaltsOrStays : Prop :=
  ∀ s, LinesLive s → s.st = .idle →
    (s.inp.cancel = true →
      step s = .next (nextLevels { s with st := .halted, history := s.history ++ [.halt s.st s.sub s.bi s.ni] })) ∧
    (s.inp.cancel = false → s.inp.start = false →
      step s = .next (nextLevels { s with
          st := .awaitNibble, bi := 0, ni := 0, sub := .s1, pkt := Packet.zero, acc := 0
          history := s.history ++ [.txnStart] })) ∧
    (s.inp.cancel = false → s.inp.start = true → step s = .next (nextLevels s))

/-- R104: `S1` waits for the clock high, by level; `cancel` first. -/
def Obligations.ClockHighWait : Prop :=
  ∀ s, InSub s .s1 →
    (s.inp.cancel = true →
      step s = .next (nextLevels { s with st := .halted, history := s.history ++ [.halt s.st s.sub s.bi s.ni] })) ∧
    (s.inp.cancel = false → s.inp.pclk = true →
      step s = .next (nextLevels { s with sub := .s2, cnt := s.cfg.tSettle })) ∧
    (s.inp.cancel = false → s.inp.pclk = false → step s = .next (nextLevels s))

/-- R106: one step of `S2`; and `S2` entered with `cnt = T_SETTLE` lasts exactly `T_SETTLE + 1` steps. -/
def Obligations.SettleLastsItsInterval : Prop :=
  (∀ s, InSub s .s2 →
    (s.cnt = 0 → step s = .next (nextLevels { s with sub := .s3 })) ∧
    (s.cnt ≠ 0 → step s = .next (nextLevels { s with cnt := s.cnt - 1 }))) ∧
  (∀ s, InSub s .s2 → s.cnt = s.cfg.tSettle → (∀ i ∈ levels s, i.rst = false) →
    (∀ k, k ≤ s.cfg.tSettle → ∃ t, run k s = .next t ∧ InSub t .s2) ∧
    (∃ t, run (s.cfg.tSettle + 1) s = .next t ∧ InSub t .s3))

/-- R110: `S3` drives the status lines with the byte index; no other step but a reset changes them; and in every state
that meets the invariant the `S3` of nibble 1 writes the value already there. -/
def Obligations.StatusIsDrivenAtS3Only : Prop :=
  (∀ s, InSub s .s3 → step s = .next (nextLevels { s with
      status := s.bi, sub := .s4, history := s.history ++ [.statusWrite s.bi] })) ∧
  (∀ s t, step s = .next t → t.status ≠ s.status → s.inp.rst = true ∨ InSub s .s3) ∧
  (∀ s, BlockInv s → InSub s .s3 → s.ni = 1 → ∃ t, step s = .next t ∧ t.status = s.status)

/-- R112: `S4` samples the four data lines into the accumulator; after both nibbles it holds `n0 + 16 * n1`. -/
def Obligations.SampleFillsTheAccumulator : Prop :=
  (∀ s, InSub s .s4 →
    step s = .next (nextLevels { s with
        acc := if s.ni = 0 then s.inp.d.zeroExtend 8 else s.acc ||| (s.inp.d.zeroExtend 8 <<< 4), sub := .s5a
        history := s.history ++ [.sample s.bi s.ni s.inp.d] })) ∧
  (∀ (n0 n1 : Nibble), n0.zeroExtend 8 ||| (n1.zeroExtend 8 <<< 4) = joinNibbles n0 n1)

/-- R114: `S5a` raises `ack`; no other step raises it; and `S5a` is entered only by the step of `S4` that samples, so
`ack` rises strictly after the sample. -/
def Obligations.AckRisesAfterTheSample : Prop :=
  (∀ s, InSub s .s5a → step s = .next (nextLevels { s with
      ack := true, cnt := s.cfg.tAck, sub := .s5b, history := s.history ++ [.ackRise] })) ∧
  (∀ s t, step s = .next t → s.ack = false → t.ack = true → InSub s .s5a) ∧
  (∀ s t, step s = .next t → t.st = .awaitNibble ∧ t.sub = .s5a → ¬ (s.st = .awaitNibble ∧ s.sub = .s5a) →
    InSub s .s4 ∧ t.history = s.history ++ [.sample s.bi s.ni s.inp.d])

/-- R116: one step of `S5b`; and `S5b` entered with `ack` high and `cnt = T_ACK` lasts exactly `T_ACK + 1` steps, with
`ack` high for `T_ACK + 2` steps, those of `S5b` and `S5c`. -/
def Obligations.AckIsHeldItsInterval : Prop :=
  (∀ s, InSub s .s5b →
    (s.cnt = 0 → step s = .next (nextLevels { s with sub := .s5c })) ∧
    (s.cnt ≠ 0 → step s = .next (nextLevels { s with cnt := s.cnt - 1 }))) ∧
  (∀ s, InSub s .s5b → s.ack = true → s.cnt = s.cfg.tAck → (∀ i ∈ levels s, i.rst = false) →
    (∀ k, k ≤ s.cfg.tAck → ∃ t, run k s = .next t ∧ InSub t .s5b ∧ t.ack = true) ∧
    (∃ t, run (s.cfg.tAck + 1) s = .next t ∧ InSub t .s5c ∧ t.ack = true) ∧
    (∃ t, run (s.cfg.tAck + 2) s = .next t ∧ InSub t .s6 ∧ t.ack = false))

/-- R118: `S5c` lowers `ack`. -/
def Obligations.AckFallsBeforeTheClockLowWait : Prop :=
  ∀ s, InSub s .s5c → step s = .next (nextLevels { s with
      ack := false, sub := .s6, history := s.history ++ [.ackFall] })

/-- R120 and R122: `S6` waits for the clock low; the step that reads it low ends the nibble phase. -/
def Obligations.ClockLowWaitAdvances : Prop :=
  ∀ s, InSub s .s6 →
    (s.inp.cancel = true →
      step s = .next (nextLevels { s with st := .halted, history := s.history ++ [.halt s.st s.sub s.bi s.ni] })) ∧
    (s.inp.cancel = false → s.inp.pclk = true → step s = .next (nextLevels s)) ∧
    (s.inp.cancel = false → s.inp.pclk = false →
      (s.ni = 0 → step s = .next (nextLevels { s with ni := 1, sub := .s1 })) ∧
      (s.ni = 1 → s.bi.toNat < 6 → step s = .next (nextLevels { s with
          pkt := s.pkt.setByte s.bi s.acc, bi := s.bi + 1, ni := 0, sub := .s1 })) ∧
      (s.ni = 1 → s.bi.toNat = 6 → step s = .next (nextLevels { s with
          pkt := { s.pkt with b6 := s.acc }, st := .done })))

/-- R144: a step runs the decoded command. In `Done` the packet is handed on and recorded; wired `Local` its command's
exec runs, at the state with the packet recorded, and the sequencer returns to `Idle`; wired `RelaySender` only the latter.
The bytes fetched are the seven slots; they always decode to a well-formed instruction. -/
def Obligations.DoneRunsTheDecodedCommand : Prop :=
  ∀ s, LaunchOk s.cfg → s.inp.rst = false → s.st = .done →
    (decode s.pkt).WellFormed ∧
    (s.cfg.deploy = .localDeploy →
      step s = onNext (exec (decode s.pkt) { s with history := s.history ++ [.packet s.pkt] })
        (fun t => .next (nextLevels { t with st := .idle }))) ∧
    (s.cfg.deploy = .relaySender →
      step s = .next (nextLevels { s with st := .idle, history := s.history ++ [.packet s.pkt] })) ∧
    (s.cfg.deploy ≠ .relayReceiver → ∃ t, step s = .next t ∧ t.st = .idle)

/-- R182: the `PKT_IN` step of a relay receiver. `cancel` is tested first; otherwise the packet is recorded and its
command's exec runs; the step completes. -/
def Obligations.ReceiverRunsThePacketItTakes : Prop :=
  ∀ s b, LaunchOk s.cfg → s.inp.rst = false → s.cfg.deploy = .relayReceiver → s.st ≠ .halted →
    s.inp.pktIn = some b →
    (s.inp.cancel = true →
      step s = .next (nextLevels { s with st := .halted, history := s.history ++ [.halt s.st s.sub s.bi s.ni] })) ∧
    (s.inp.cancel = false →
      step s = onNext (exec (decode b) { s with
          inp := { s.inp with pktIn := none }, history := s.history ++ [.packetIn b] }) (fun t => .next (nextLevels t)) ∧
      ∃ t, step s = .next t ∧ t.st = s.st)

/-- A relay receiver that is offered no packet does nothing, whatever its lines read (44_packet_ports.md section on the
wirings; that 'no step' is a next state with the block unchanged is the model's choice, log 8). -/
def Obligations.ReceiverIgnoresItsLines : Prop :=
  ∀ s, LaunchOk s.cfg → s.inp.rst = false → s.cfg.deploy = .relayReceiver → s.inp.pktIn = none →
    step s = .next (nextLevels s)

/-! ### Reset, cancellation, the end of a run -/

/-- R220: a step with `rst` high, whatever the state and the other inputs. -/
def Obligations.ResetWinsOverEverything : Prop :=
  ∀ s, LaunchOk s.cfg → s.inp.rst = true →
    step s = .next (nextLevels { s with
        st := .idle, sub := .s1, bi := 0, ni := 0, acc := 0, cnt := 0, pkt := ⟨0, 0, 0, 0, 0, 0, 0⟩
        ack := false, status := 0, history := [.reset] })

/-- R40: the values after reset, for every configuration record, and those of State.reset. That the surface lists no
byte, and what the inputs and the configuration record hold, are the model's choices (log 2, 3, 4) and not stated. -/
def Obligations.ResetValues : Prop :=
  (∀ c, (State.powerUp c).cfg = c) ∧ (∃ c, State.reset = State.powerUp c) ∧
  ∀ s, (∃ c, s = State.powerUp c) → s.st = .idle ∧ s.sub = .s1 ∧ s.bi = 0 ∧ s.ni = 0 ∧ s.acc = 0 ∧ s.cnt = 0 ∧
    s.pkt = ⟨0, 0, 0, 0, 0, 0, 0⟩ ∧ s.ack = false ∧ s.status = 0 ∧ s.history = [.reset]

/-- `Halted` has no step and only `rst` leaves it (40_handshake_decoder.md section 4): however long a run without `rst` is, the
block stays as it was halted. That 'no step' is a next state is the model's choice (log 8). -/
def Obligations.HaltedHoldsUntilReset : Prop :=
  ∀ n s, LaunchOk s.cfg → s.st = .halted → (∀ i ∈ levels s, i.rst = false) →
    ∃ t, run n s = .next t ∧ t = { s with inp := t.inp, script := t.script }

/-- Where a run ends (60_exceptions.md sections 1 to 4): a step enters `Halted` only if it read `cancel` at 1 in one of the
four steps that read it, and leaves `Halted` only if it read `rst` at 1. -/
def Obligations.OnlyCancelHaltsAndOnlyResetResumes : Prop :=
  ∀ s t, step s = .next t →
    (s.st ≠ .halted → t.st = .halted → s.inp.cancel = true ∧ s.inp.rst = false ∧
      ((s.cfg.deploy ≠ .relayReceiver ∧ (s.st = .idle ∨ (s.st = .awaitNibble ∧ (s.sub = .s1 ∨ s.sub = .s6)))) ∨
       (s.cfg.deploy = .relayReceiver ∧ s.inp.pktIn ≠ none))) ∧
    (s.st = .halted → t.st ≠ .halted → s.inp.rst = true)

/-- How soon `cancel` halts, an inference the spec marks as its own (60_exceptions.md section 2): counting from the first step
in `S2`, after exactly `T_SETTLE + T_ACK + 6` steps that do not halt, the next one does; the nibble is sampled and
acknowledged, and no packet is dispatched. -/
def Obligations.CancelHaltsWithinANibble : Prop :=
  ∀ s, InSub s .s2 → s.cnt = s.cfg.tSettle → (∀ i ∈ levels s, i.rst = false ∧ i.cancel = true) →
    (∀ k, k ≤ s.cfg.tSettle + s.cfg.tAck + 6 → ∃ t, run k s = .next t ∧ t.st = .awaitNibble) ∧
    ∃ t d, run (s.cfg.tSettle + s.cfg.tAck + 7) s = .next t ∧ t.st = .halted ∧ t.surf = s.surf ∧
      t.history = s.history ++
        [.statusWrite s.bi, .sample s.bi s.ni d, .ackRise, .ackFall, .halt .awaitNibble .s6 s.bi s.ni]

/-! ### What a step reads and writes -/

/-- Each line is read only where its rule reads it (40_handshake_decoder.md sections 2 and 3, 60_exceptions.md section 1): `start` in `Idle`,
`pclk` in `S1` and `S6`, `d` in `S4`, `cancel` in `Idle`, `S1`, `S6` and the `PKT_IN` step. -/
def Obligations.LinesAreReadOnlyWhereTheRulesReadThem : Prop :=
  ∀ s,
    (s.st ≠ .idle → ∀ b, StepIgnores (fun i => { i with start := b }) s) ∧
    (¬ (s.st = .awaitNibble ∧ (s.sub = .s1 ∨ s.sub = .s6)) → ∀ b, StepIgnores (fun i => { i with pclk := b }) s) ∧
    (¬ (s.st = .awaitNibble ∧ s.sub = .s4) → ∀ n, StepIgnores (fun i => { i with d := n }) s) ∧
    (¬ (s.st = .idle ∨ (s.st = .awaitNibble ∧ (s.sub = .s1 ∨ s.sub = .s6))) →
      s.cfg.deploy ≠ .relayReceiver → ∀ b, StepIgnores (fun i => { i with cancel := b }) s)

/-- The block never reads the surface (20_memory.md section 1, section 9): two runs that differ only in the surface they start with
stay equal in everything but the surface. -/
def Obligations.SurfaceIsNeverRead : Prop :=
  ∀ n s m t, run n s = .next t → ∃ m', run n { s with surf := m } = .next { t with surf := m' }

/-- No rule reads the status lines (60_exceptions.md section 11): two runs that differ only in `status` stay equal in everything
but `status`. -/
def Obligations.StatusIsNeverRead : Prop :=
  ∀ n s v t, run n s = .next t → ∃ w, run n { s with status := v } = .next { t with status := w }

/-- The packet buffer (41_packet_assembler.md): a step changes it only by a reset or the start of a transaction, which clear
it, or at the end of nibble 1 of byte `bi`, which writes that one slot. And the slots are written in order: a step changes
`bi` only by a reset or the start of a transaction, which put it to 0, or by raising it by one from below 6 as it writes
slot `bi`. -/
def Obligations.PacketBufferIsWrittenInOrder : Prop :=
  ∀ s t, step s = .next t →
    (t.pkt ≠ s.pkt →
      (s.inp.rst = true ∧ t.pkt = Packet.zero) ∨
      (LinesLive s ∧ s.st = .idle ∧ s.inp.start = false ∧ t.st = .awaitNibble ∧ t.bi = 0 ∧ t.pkt = Packet.zero) ∨
      (InSub s .s6 ∧ s.ni = 1 ∧ s.inp.pclk = false ∧ t.pkt = s.pkt.setByte s.bi s.acc ∧
        (t.bi ≠ s.bi ∨ t.st = .done))) ∧
    (t.bi ≠ s.bi →
      (s.inp.rst = true ∧ t.bi = 0) ∨
      (LinesLive s ∧ s.st = .idle ∧ s.inp.start = false ∧ t.st = .awaitNibble ∧ t.bi = 0 ∧ t.pkt = Packet.zero) ∨
      (InSub s .s6 ∧ s.ni = 1 ∧ s.inp.pclk = false ∧ t.pkt = s.pkt.setByte s.bi s.acc ∧
        s.bi.toNat < 6 ∧ t.bi.toNat = s.bi.toNat + 1))

/-- The surface is written only by a command (20_memory.md section 7, 70_reset_and_hazards.md section 1): a step changes
it only where, with `rst` low, a block wired `Local` dispatches a packet, or a relay receiver that has not halted takes one
that is offered, with `cancel` low. -/
def Obligations.OnlyCommandsWriteTheSurface : Prop :=
  ∀ s t, step s = .next t → t.surf ≠ s.surf →
    s.inp.rst = false ∧
    ((s.cfg.deploy = .localDeploy ∧ s.st = .done) ∨
     (s.cfg.deploy = .relayReceiver ∧ s.st ≠ .halted ∧ s.inp.cancel = false ∧ ∃ b, s.inp.pktIn = some b))

/-- What the packet transport sees (44_packet_ports.md): a step without `rst` adds to `PKT_OUT` exactly the packet of a
dispatch, and nothing otherwise. -/
def Obligations.PktOutGetsOnePacketPerDispatch : Prop :=
  ∀ s t, step s = .next t → s.inp.rst = false →
    transportView t = transportView s ++
      (if s.st = .done ∧ s.cfg.deploy ≠ .relayReceiver then [s.pkt] else [])

/-- The configuration record is constant (10_state.md section 5), and every step's environment moves on as log 1 says: the next
levels of the script are at the ports, or, where it has none, the levels are held (but for a packet that was taken). The second
half is the model's choice (log 1). -/
def Obligations.ConfigurationIsConstant : Prop :=
  ∀ s t, step s = .next t → t.cfg = s.cfg ∧
    (∀ i rest, s.script = i :: rest → t.inp = i ∧ t.script = rest) ∧
    (s.script = [] → t.script = [] ∧ (t.inp = s.inp ∨ t.inp = { s.inp with pktIn := none }))

/-- No step faults, and none refuses but where the configuration breaks a launch premise (20_memory.md section 1, 60_exceptions.md
section 5). -/
def Obligations.StepsStopOnlyAtABadLaunch : Prop :=
  ∀ s, (LaunchOk s.cfg → ∃ t, step s = .next t) ∧ (¬ LaunchOk s.cfg → step s = .refused .launchPremise)

/-! ### Invariants -/

/-- The invariants the spec marks as its own inference (10_state.md section 9), with the model's own clauses of BlockInv, hold at first
power-up of every configuration that meets the launch premises, and at State.reset. -/
def Obligations.InvariantAtReset : Prop :=
  (∀ c, LaunchOk c → BlockInv (State.powerUp c)) ∧ BlockInv State.reset

/-- From every state that meets the invariant, every step keeps it. -/
def Obligations.InvariantKeptByEveryStep : Prop :=
  ∀ s t, BlockInv s → step s = .next t → BlockInv t

/-! ### Whole nibble phases and transactions -/

/-- One nibble phase (40_handshake_decoder.md section 7): on the levels of a transmitter that keeps its obligations (log 17) the
block, starting in `S1` and however long it waits, takes the nibble, records its four events and ends the phase. -/
def Obligations.NibblePhaseTakesItsNibble : Prop :=
  ∀ (s : State) (n : Nibble) (l rest : List Inputs), LaunchOk s.cfg → s.cfg.deploy ≠ .relayReceiver →
    s.st = .awaitNibble → s.sub = .s1 → NibbleLevels s.cfg n l → rest ≠ [] → levels s = l ++ rest →
    run l.length s = .next (withLevels rest (advance { s with
        sub := .s6, acc := accumulate s.acc s.ni n, status := s.bi, ack := false, cnt := 0
        history := s.history ++ nibbleEvents s.bi s.ni n }))

/-- The assembler's law, an inference the spec marks as its own (41_packet_assembler.md, 70_reset_and_hazards.md section 3): on the
levels of a well-kept transaction of ANY packet the block records exactly the transaction's events, in order, dispatches
that packet unchanged, and is back in `Idle`; wired `Local`, the surface and the rest of the history are those of the packet's
command; wired `RelaySender`, the surface is untouched. -/
def Obligations.TransactionDeliversThePacketSent : Prop :=
  ∀ (s : State) (b : Packet) (l rest : List Inputs), LaunchOk s.cfg → s.cfg.deploy ≠ .relayReceiver →
    s.st = .idle → TransactionLevels s.cfg b l → rest ≠ [] → levels s = l ++ rest →
    ∃ t, run l.length s = .next t ∧ levels t = rest ∧ t.st = .idle ∧ t.pkt = b ∧ t.ack = false ∧ t.status = 6 ∧
      (s.cfg.deploy = .relaySender → t.surf = s.surf ∧ t.history = s.history ++ transactionEvents b) ∧
      (s.cfg.deploy = .localDeploy → ∃ u,
        exec (decode b) { s with history := s.history ++ transactionEvents b } = .next u ∧
          t.surf = u.surf ∧ t.history = u.history)

/-- The least number of steps of a nibble phase, an inference the spec marks as its own (70_reset_and_hazards.md section 5): whatever
the lines read, without `rst` no run of fewer than `T_SETTLE + T_ACK + 8` steps from `S1` ends the nibble phase. -/
def Obligations.NibblePhaseTakesAtLeastItsSteps : Prop :=
  ∀ (k : Nat) (s t : State), s.cfg.deploy ≠ .relayReceiver → s.st = .awaitNibble → s.sub = .s1 →
    (∀ i ∈ levels s, i.rst = false) → k < s.cfg.tSettle + s.cfg.tAck + 8 → run k s = .next t →
    t.bi = s.bi ∧ t.ni = s.ni ∧ t.pkt = s.pkt ∧ (t.st = .awaitNibble ∨ t.st = .halted)
end

