-- ==== Sys2Proof/Laws/Decode.lean ====
section
/-! SUPPORT. Bit fields as numbers, and the decoder case by case over the type byte. -/

namespace Sys2Proof

/-! ### Fields as numbers -/

/-- A concatenation as a number: the lower part plus the upper part times its place. -/
theorem append_toNat {n m : Nat} (a : BitVec n) (b : BitVec m) : (a ++ b).toNat = b.toNat + 2 ^ m * a.toNat := by
  rw [BitVec.toNat_append, Nat.shiftLeft_eq, Nat.mul_comm, ← Nat.two_pow_add_eq_or_of_lt b.isLt]
  omega

/-- `u16le` as a number (R12, R82). -/
theorem u16le_toNat (lo hi : Byte) : (u16le lo hi).toNat = lo.toNat + 256 * hi.toNat := by
  have h : u16le lo hi = hi ++ lo := rfl
  rw [h, BitVec.toNat_append, Nat.shiftLeft_eq]
  have := lo.isLt
  rw [Nat.mul_comm, ← Nat.two_pow_add_eq_or_of_lt (by omega)]
  omega

@[simp] theorem u16le_low_high (v : Half) : u16le (lowByte v) (highByte v) = v := by
  have hv := v.isLt
  apply BitVec.eq_of_toNat_eq
  rw [u16le_toNat]
  simp only [lowByte, highByte, BitVec.extractLsb'_toNat, Nat.shiftRight_eq_div_pow]
  omega

@[simp] theorem lowByte_u16le (lo hi : Byte) : lowByte (u16le lo hi) = lo := by
  have := lo.isLt
  have := hi.isLt
  apply BitVec.eq_of_toNat_eq
  simp only [lowByte, BitVec.extractLsb'_toNat, u16le_toNat, Nat.shiftRight_eq_div_pow]
  omega

@[simp] theorem highByte_u16le (lo hi : Byte) : highByte (u16le lo hi) = hi := by
  have := lo.isLt
  have := hi.isLt
  apply BitVec.eq_of_toNat_eq
  simp only [highByte, BitVec.extractLsb'_toNat, u16le_toNat, Nat.shiftRight_eq_div_pow]
  omega

theorem bytes1to6_toNat (p : Packet) : p.bytes1to6.toNat = p.b1.toNat + 2 ^ 8 * p.b2.toNat + 2 ^ 16 * p.b3.toNat +
    2 ^ 24 * p.b4.toNat + 2 ^ 32 * p.b5.toNat + 2 ^ 40 * p.b6.toNat := by
  unfold Packet.bytes1to6
  simp only [append_toNat]
  omega

theorem ofType_bytes1to6 (c : Byte) (r : BitVec 48) : (Packet.ofType c r).bytes1to6 = r := by
  have := r.isLt
  apply BitVec.eq_of_toNat_eq
  rw [bytes1to6_toNat]
  simp only [Packet.ofType, BitVec.extractLsb'_toNat, Nat.shiftRight_eq_div_pow]
  omega

theorem ofType_of_bytes1to6 (p : Packet) : Packet.ofType p.b0 p.bytes1to6 = p := by
  obtain ⟨b0, b1, b2, b3, b4, b5, b6⟩ := p
  have := b1.isLt; have := b2.isLt; have := b3.isLt; have := b4.isLt; have := b5.isLt; have := b6.isLt
  simp only [Packet.ofType, Packet.mk.injEq, true_and]
  refine ⟨?_, ?_, ?_, ?_, ?_, ?_⟩ <;>
  · apply BitVec.eq_of_toNat_eq
    simp only [BitVec.extractLsb'_toNat, bytes1to6_toNat, Nat.shiftRight_eq_div_pow]
    omega

theorem bytes1to4_toNat (p : Packet) : p.bytes1to4.toNat = p.b1.toNat + 2 ^ 8 * p.b2.toNat + 2 ^ 16 * p.b3.toNat +
    2 ^ 24 * p.b4.toNat := by
  unfold Packet.bytes1to4
  simp only [append_toNat]
  omega

/-! ### Bytes from nibbles (R84) -/

/-- Two nibbles make a byte. -/
theorem joinNibbleList_length (l : List Nibble) : (joinNibbleList l).length = l.length / 2 := by
  induction l using joinNibbleList.induct with
  | case1 n0 n1 rest ih => simp [joinNibbleList, ih]; omega
  | case2 l h =>
    match l, h with
    | [], _ => rfl
    | [_], _ => simp [joinNibbleList]
    | n0 :: n1 :: rest, h => exact absurd rfl (h n0 n1 rest)

/-- More nibbles after whole bytes make more bytes after those bytes. -/
theorem joinNibbleList_append (l l' : List Nibble) (h : l.length % 2 = 0) :
    joinNibbleList (l ++ l') = joinNibbleList l ++ joinNibbleList l' := by
  induction l using joinNibbleList.induct with
  | case1 n0 n1 rest ih => simp [joinNibbleList, ih (by simp at h; omega)]
  | case2 l hl =>
    match l, hl, h with
    | [], _, _ => rfl
    | [_], _, h => simp at h
    | n0 :: n1 :: rest, hl, _ => exact absurd rfl (hl n0 n1 rest)

/-- One nibble more leaves the bytes that are whole as they are. -/
theorem joinNibbleList_getElem_append (l : List Nibble) (n : Nibble) (k : Nat) (h : k < l.length / 2) :
    (joinNibbleList (l ++ [n]))[k]? = (joinNibbleList l)[k]? := by
  induction l using joinNibbleList.induct generalizing k with
  | case1 n0 n1 rest ih =>
    cases k with
    | zero => rfl
    | succ k =>
      simp only [List.cons_append, joinNibbleList, List.getElem?_cons_succ]
      exact ih k (by simp at h; omega)
  | case2 l hl =>
    match l, hl, h with
    | [], _, h => simp at h
    | [_], _, h => simp at h
    | n0 :: n1 :: rest, hl, _ => exact absurd rfl (hl n0 n1 rest)

/-! ### The decoder over the type byte (R86) -/

theorem decode_type0 {p : Packet} (h : p.b0 = 0x00#8) : decode p = .fillBlank p.bytes1to6 := by
  simp [decode, h]

theorem decode_type1 {p : Packet} (h : p.b0 = 0x01#8) : decode p = .setPixel p.xField p.yField p.colourField := by
  simp [decode, h]

theorem decode_type2 {p : Packet} (h : p.b0 = 0x02#8) : decode p = .fillRed p.bytes1to6 := by
  simp [decode, h]

theorem decode_type3 {p : Packet} (h : p.b0 = 0x03#8) : decode p = .fillGreen p.bytes1to6 := by
  simp [decode, h]

theorem decode_type4 {p : Packet} (h : p.b0 = 0x04#8) : decode p = .fillBlue p.bytes1to6 := by
  simp [decode, h]

theorem decode_type5 {p : Packet} (h : p.b0 = 0x05#8) : decode p = .fillWhite p.bytes1to6 := by
  simp [decode, h]

theorem decode_type6 {p : Packet} (h : p.b0 = 0x06#8) : decode p = .fillColour p.bytes1to4 p.colourField := by
  simp [decode, h]

theorem decode_type7 {p : Packet} (h : p.b0 = 0x07#8) : decode p = .resolution p.bytes1to6 := by
  simp [decode, h]

/-- A type byte of 8 or more is none of the eight known ones. -/
theorem decode_type8 {p : Packet} (h : 8 ≤ p.b0.toNat) :
    decode p =
      if p.b0.toNat ≤ 0x0F then .unknown08 p.b0 p.bytes1to6
      else if p.b0.toNat ≤ 0x1F then .unknown10 p.b0 p.bytes1to6
      else if p.b0.toNat ≤ 0x3F then .unknown20 p.b0 p.bytes1to6
      else if p.b0.toNat ≤ 0x7F then .unknown40 p.b0 p.bytes1to6
      else .unknown80 p.b0 p.bytes1to6 := by
  have ne : ∀ k : Byte, k.toNat < 8 → p.b0 ≠ k := fun k hk e => by
    rw [e] at h
    omega
  unfold decode
  rw [if_neg (ne _ (by decide)), if_neg (ne _ (by decide)), if_neg (ne _ (by decide)), if_neg (ne _ (by decide)),
    if_neg (ne _ (by decide)), if_neg (ne _ (by decide)), if_neg (ne _ (by decide)), if_neg (ne _ (by decide))]

/-- The type byte is one of the eight known ones, or 8 or more. -/
theorem type_cases (c : Byte) :
    c = 0#8 ∨ c = 1#8 ∨ c = 2#8 ∨ c = 3#8 ∨ c = 4#8 ∨ c = 5#8 ∨ c = 6#8 ∨ c = 7#8 ∨ 8 ≤ c.toNat := by
  by_cases h : 8 ≤ c.toNat
  · simp [h]
  · have hc : c = BitVec.ofNat 8 c.toNat := by simp
    generalize c.toNat = n at h hc
    subst hc
    have hn : n < 8 := by omega
    interval_cases n <;> decide

end Sys2Proof
end

