-- ==== Sys2Proof/Laws/State.lean ====
section
/-! SUPPORT. What each update of the state does to each field: one lemma per field and update (refs: say once, cite after). -/

namespace Sys2Proof.Machine

section
variable (s : State) (e : Event) (b : Packet) (i : Inputs) (rest : List Inputs) (c : Config)

/-! ### `emit` -/

@[simp] theorem emit_st : (emit e s).st = s.st := rfl
@[simp] theorem emit_sub : (emit e s).sub = s.sub := rfl
@[simp] theorem emit_bi : (emit e s).bi = s.bi := rfl
@[simp] theorem emit_ni : (emit e s).ni = s.ni := rfl
@[simp] theorem emit_acc : (emit e s).acc = s.acc := rfl
@[simp] theorem emit_cnt : (emit e s).cnt = s.cnt := rfl
@[simp] theorem emit_pkt : (emit e s).pkt = s.pkt := rfl
@[simp] theorem emit_ack : (emit e s).ack = s.ack := rfl
@[simp] theorem emit_status : (emit e s).status = s.status := rfl
@[simp] theorem emit_surf : (emit e s).surf = s.surf := rfl
@[simp] theorem emit_cfg : (emit e s).cfg = s.cfg := rfl
@[simp] theorem emit_inp : (emit e s).inp = s.inp := rfl
@[simp] theorem emit_script : (emit e s).script = s.script := rfl
@[simp] theorem emit_history : (emit e s).history = s.history ++ [e] := rfl
@[simp] theorem emit_fills : (emit e s).fills = s.fills := rfl

/-! ### The nibbles of the running transaction: what one more event does to them -/

/-- One more event. -/
theorem transactionNibbles_append (h : List Event) :
    transactionNibbles (h ++ [e]) = takeNibble (transactionNibbles h) e := by
  simp [transactionNibbles]

@[simp] theorem transactionNibbles_txnStart (h : List Event) : transactionNibbles (h ++ [.txnStart]) = [] :=
  transactionNibbles_append _ h

@[simp] theorem transactionNibbles_sample (h : List Event) (bi : BitVec 3) (ni : BitVec 1) (n : Nibble) :
    transactionNibbles (h ++ [.sample bi ni n]) = transactionNibbles h ++ [n] := transactionNibbles_append _ h

@[simp] theorem transactionNibbles_statusWrite (h : List Event) (v : BitVec 3) :
    transactionNibbles (h ++ [.statusWrite v]) = transactionNibbles h := transactionNibbles_append _ h

@[simp] theorem transactionNibbles_ackRise (h : List Event) :
    transactionNibbles (h ++ [.ackRise]) = transactionNibbles h := transactionNibbles_append _ h

@[simp] theorem transactionNibbles_ackFall (h : List Event) :
    transactionNibbles (h ++ [.ackFall]) = transactionNibbles h := transactionNibbles_append _ h

@[simp] theorem transactionNibbles_packet (h : List Event) :
    transactionNibbles (h ++ [.packet b]) = transactionNibbles h := transactionNibbles_append _ h

/-! ### `halt` -/

@[simp] theorem halt_st : (halt s).st = .halted := rfl
@[simp] theorem halt_sub : (halt s).sub = s.sub := rfl
@[simp] theorem halt_bi : (halt s).bi = s.bi := rfl
@[simp] theorem halt_ni : (halt s).ni = s.ni := rfl
@[simp] theorem halt_acc : (halt s).acc = s.acc := rfl
@[simp] theorem halt_cnt : (halt s).cnt = s.cnt := rfl
@[simp] theorem halt_pkt : (halt s).pkt = s.pkt := rfl
@[simp] theorem halt_ack : (halt s).ack = s.ack := rfl
@[simp] theorem halt_status : (halt s).status = s.status := rfl
@[simp] theorem halt_surf : (halt s).surf = s.surf := rfl
@[simp] theorem halt_cfg : (halt s).cfg = s.cfg := rfl
@[simp] theorem halt_inp : (halt s).inp = s.inp := rfl
@[simp] theorem halt_script : (halt s).script = s.script := rfl
@[simp] theorem halt_history : (halt s).history = s.history ++ [.halt s.st s.sub s.bi s.ni] := rfl
@[simp] theorem halt_fills : (halt s).fills = s.fills := rfl

/-! ### `applyRst` -/

@[simp] theorem applyRst_st : (applyRst s).st = .idle := rfl
@[simp] theorem applyRst_sub : (applyRst s).sub = .s1 := rfl
@[simp] theorem applyRst_bi : (applyRst s).bi = 0#3 := rfl
@[simp] theorem applyRst_ni : (applyRst s).ni = 0#1 := rfl
@[simp] theorem applyRst_acc : (applyRst s).acc = 0#8 := rfl
@[simp] theorem applyRst_cnt : (applyRst s).cnt = 0 := rfl
@[simp] theorem applyRst_pkt : (applyRst s).pkt = .zero := rfl
@[simp] theorem applyRst_ack : (applyRst s).ack = false := rfl
@[simp] theorem applyRst_status : (applyRst s).status = 0#3 := rfl
@[simp] theorem applyRst_surf : (applyRst s).surf = s.surf := rfl
@[simp] theorem applyRst_cfg : (applyRst s).cfg = s.cfg := rfl
@[simp] theorem applyRst_inp : (applyRst s).inp = s.inp := rfl
@[simp] theorem applyRst_script : (applyRst s).script = s.script := rfl
@[simp] theorem applyRst_history : (applyRst s).history = [.reset] := rfl
@[simp] theorem applyRst_fills : (applyRst s).fills = s.fills := rfl

/-! ### `acceptPacket` -/

@[simp] theorem acceptPacket_st : (acceptPacket b s).st = s.st := rfl
@[simp] theorem acceptPacket_sub : (acceptPacket b s).sub = s.sub := rfl
@[simp] theorem acceptPacket_bi : (acceptPacket b s).bi = s.bi := rfl
@[simp] theorem acceptPacket_ni : (acceptPacket b s).ni = s.ni := rfl
@[simp] theorem acceptPacket_acc : (acceptPacket b s).acc = s.acc := rfl
@[simp] theorem acceptPacket_cnt : (acceptPacket b s).cnt = s.cnt := rfl
@[simp] theorem acceptPacket_pkt : (acceptPacket b s).pkt = s.pkt := rfl
@[simp] theorem acceptPacket_ack : (acceptPacket b s).ack = s.ack := rfl
@[simp] theorem acceptPacket_status : (acceptPacket b s).status = s.status := rfl
@[simp] theorem acceptPacket_surf : (acceptPacket b s).surf = s.surf := rfl
@[simp] theorem acceptPacket_cfg : (acceptPacket b s).cfg = s.cfg := rfl
@[simp] theorem acceptPacket_inp : (acceptPacket b s).inp = { s.inp with pktIn := none } := rfl
@[simp] theorem acceptPacket_script : (acceptPacket b s).script = s.script := rfl
@[simp] theorem acceptPacket_history : (acceptPacket b s).history = s.history ++ [.packetIn b] := rfl
@[simp] theorem acceptPacket_fills : (acceptPacket b s).fills = s.fills := rfl

/-! ### `placePacket` -/

@[simp] theorem placePacket_st : (placePacket b s).st = .done := rfl
@[simp] theorem placePacket_sub : (placePacket b s).sub = s.sub := rfl
@[simp] theorem placePacket_bi : (placePacket b s).bi = s.bi := rfl
@[simp] theorem placePacket_ni : (placePacket b s).ni = s.ni := rfl
@[simp] theorem placePacket_acc : (placePacket b s).acc = s.acc := rfl
@[simp] theorem placePacket_cnt : (placePacket b s).cnt = s.cnt := rfl
@[simp] theorem placePacket_pkt : (placePacket b s).pkt = b := rfl
@[simp] theorem placePacket_ack : (placePacket b s).ack = s.ack := rfl
@[simp] theorem placePacket_status : (placePacket b s).status = s.status := rfl
@[simp] theorem placePacket_surf : (placePacket b s).surf = s.surf := rfl
@[simp] theorem placePacket_cfg : (placePacket b s).cfg = { s.cfg with deploy := .localDeploy } := rfl
@[simp] theorem placePacket_inp : (placePacket b s).inp = { s.inp with rst := false } := rfl
@[simp] theorem placePacket_script : (placePacket b s).script = s.script := rfl
@[simp] theorem placePacket_history : (placePacket b s).history = s.history := rfl
@[simp] theorem placePacket_fills : (placePacket b s).fills = s.fills := rfl

/-! ### `nextLevels` -/

@[simp] theorem nextLevels_st : (nextLevels s).st = s.st := by unfold nextLevels; split <;> rfl
@[simp] theorem nextLevels_sub : (nextLevels s).sub = s.sub := by unfold nextLevels; split <;> rfl
@[simp] theorem nextLevels_bi : (nextLevels s).bi = s.bi := by unfold nextLevels; split <;> rfl
@[simp] theorem nextLevels_ni : (nextLevels s).ni = s.ni := by unfold nextLevels; split <;> rfl
@[simp] theorem nextLevels_acc : (nextLevels s).acc = s.acc := by unfold nextLevels; split <;> rfl
@[simp] theorem nextLevels_cnt : (nextLevels s).cnt = s.cnt := by unfold nextLevels; split <;> rfl
@[simp] theorem nextLevels_pkt : (nextLevels s).pkt = s.pkt := by unfold nextLevels; split <;> rfl
@[simp] theorem nextLevels_ack : (nextLevels s).ack = s.ack := by unfold nextLevels; split <;> rfl
@[simp] theorem nextLevels_status : (nextLevels s).status = s.status := by unfold nextLevels; split <;> rfl
@[simp] theorem nextLevels_surf : (nextLevels s).surf = s.surf := by unfold nextLevels; split <;> rfl
@[simp] theorem nextLevels_cfg : (nextLevels s).cfg = s.cfg := by unfold nextLevels; split <;> rfl
@[simp] theorem nextLevels_history : (nextLevels s).history = s.history := by unfold nextLevels; split <;> rfl
@[simp] theorem nextLevels_fills : (nextLevels s).fills = s.fills := by unfold nextLevels; split <;> rfl

theorem nextLevels_nil (h : s.script = []) : nextLevels s = s := by simp [nextLevels, h]

theorem nextLevels_cons (h : s.script = i :: rest) : nextLevels s = { s with inp := i, script := rest } := by
  simp [nextLevels, h]

/-! ### `State.powerUp` -/

@[simp] theorem powerUp_st : (State.powerUp c).st = .idle := rfl
@[simp] theorem powerUp_sub : (State.powerUp c).sub = .s1 := rfl
@[simp] theorem powerUp_bi : (State.powerUp c).bi = 0#3 := rfl
@[simp] theorem powerUp_ni : (State.powerUp c).ni = 0#1 := rfl
@[simp] theorem powerUp_acc : (State.powerUp c).acc = 0#8 := rfl
@[simp] theorem powerUp_cnt : (State.powerUp c).cnt = 0 := rfl
@[simp] theorem powerUp_pkt : (State.powerUp c).pkt = .zero := rfl
@[simp] theorem powerUp_ack : (State.powerUp c).ack = false := rfl
@[simp] theorem powerUp_status : (State.powerUp c).status = 0#3 := rfl
@[simp] theorem powerUp_surf : (State.powerUp c).surf = [] := rfl
@[simp] theorem powerUp_cfg : (State.powerUp c).cfg = c := rfl
@[simp] theorem powerUp_inp : (State.powerUp c).inp = .quiet := rfl
@[simp] theorem powerUp_script : (State.powerUp c).script = [] := rfl
@[simp] theorem powerUp_history : (State.powerUp c).history = [.reset] := rfl
@[simp] theorem powerUp_fills : (State.powerUp c).fills = 0 := rfl

end

end Sys2Proof.Machine
end

