-- ==== Sys2Proof/Laws/Memory.lean ====
section
/-! SUPPORT. The laws of the surface: read after write, the canonical form, and what a list of slot writes leaves. -/

namespace Sys2Proof.Machine

/-! ### One byte -/

theorem Memory.read_nil (a : Nat) : Memory.read [] a = none := rfl

@[simp] theorem Memory.read_write_same (m : Memory) (a : Nat) (v : Byte) : (m.write a v).read a = some v := by
  induction m with
  | nil => simp [Memory.write, Memory.read]
  | cons c rest ih =>
    obtain ⟨b, w⟩ := c
    by_cases h₁ : a < b
    · simp [Memory.write, h₁, Memory.read]
    · by_cases h₂ : a = b
      · simp [Memory.write, h₂, Memory.read]
      · simp [Memory.write, h₁, h₂, Memory.read, ih]

theorem Memory.read_write_other (m : Memory) (a b : Nat) (v : Byte) (h : b ≠ a) :
    (m.write a v).read b = m.read b := by
  induction m with
  | nil => simp [Memory.write, Memory.read, h]
  | cons c rest ih =>
    obtain ⟨k, w⟩ := c
    by_cases h₁ : a < k
    · simp [Memory.write, h₁, Memory.read, h]
    · by_cases h₂ : a = k
      · subst h₂; simp [Memory.write, Memory.read, h]
      · simp [Memory.write, h₁, h₂, Memory.read, ih]

theorem Memory.read_write (m : Memory) (a b : Nat) (v : Byte) :
    (m.write a v).read b = if b = a then some v else m.read b := by
  by_cases h : b = a
  · simp [h]
  · simp [h, m.read_write_other a b v h]

/-! ### One slot -/

theorem Memory.read_write16 (m : Memory) (off a : Nat) (v : Half) :
    (m.write16 off v).read a =
      if a = off + 1 then some (highByte v) else if a = off then some (lowByte v) else m.read a := by
  simp only [Memory.write16, Memory.read_write]

/-! ### A list of slots -/

/-- What a byte reads after the writes of one value to a list of slots: the byte of the value where its slot is in the
list, and what it read before where it is not. The order of the list does not matter to it. -/
theorem Memory.read_writeSlots (slots : List Nat) (m : Memory) (v : Half) (a : Nat) :
    (m.writeSlots slots v).read a =
      if a / 2 ∈ slots then some (if a % 2 = 0 then lowByte v else highByte v) else m.read a := by
  induction slots generalizing m with
  | nil => simp [Memory.writeSlots]
  | cons i rest ih =>
    have hstep : m.writeSlots (i :: rest) v = (m.write16 (2 * i) v).writeSlots rest v := rfl
    rw [hstep, ih, Memory.read_write16]
    by_cases hr : a / 2 ∈ rest
    · simp [hr]
    · by_cases hi : a / 2 = i
      · have hmem : a / 2 ∈ i :: rest := by simp [hi]
        rw [if_neg hr, if_pos hmem]
        rcases Nat.mod_two_eq_zero_or_one a with h | h
        · rw [if_neg (by omega), if_pos (by omega), if_pos h]
        · rw [if_pos (by omega), if_neg (by omega)]
      · have h1 : ¬ a = 2 * i + 1 := by omega
        have h2 : ¬ a = 2 * i := by omega
        simp [hr, hi, h1, h2]

/-! ### The canonical form -/

/-- The canonical form as a fact about the offsets: they are strictly rising. -/
theorem Memory.wf_iff (m : Memory) : m.wf = true ↔ (m.map (·.1)).Pairwise (· < ·) := by
  induction m with
  | nil => simp [Memory.wf]
  | cons c rest ih =>
    obtain ⟨a, v⟩ := c
    cases rest with
    | nil => simp [Memory.wf]
    | cons c' rest' =>
      obtain ⟨b, w⟩ := c'
      rw [show Memory.wf ((a, v) :: (b, w) :: rest') = (decide (a < b) && Memory.wf ((b, w) :: rest')) from rfl]
      simp only [Bool.and_eq_true, decide_eq_true_eq, ih, List.map_cons, List.pairwise_cons, List.mem_cons,
        forall_eq_or_imp]
      constructor
      · rintro ⟨hab, hb, hp⟩
        exact ⟨⟨hab, fun k hk => Nat.lt_trans hab (hb k hk)⟩, hb, hp⟩
      · rintro ⟨⟨hab, -⟩, hb, hp⟩
        exact ⟨hab, hb, hp⟩

theorem Memory.mem_keys_write (m : Memory) (a : Nat) (v : Byte) (k : Nat) :
    k ∈ (m.write a v).map (·.1) ↔ k = a ∨ k ∈ m.map (·.1) := by
  induction m with
  | nil => simp [Memory.write]
  | cons c rest ih =>
    obtain ⟨b, w⟩ := c
    by_cases h₁ : a < b
    · simp [Memory.write, h₁]
    · by_cases h₂ : a = b
      · subst h₂; simp [Memory.write]
      · simp only [Memory.write, h₁, h₂, if_false, List.map_cons, List.mem_cons, ih]
        tauto

/-- Every write keeps the canonical form. -/
theorem Memory.wf_write (m : Memory) (a : Nat) (v : Byte) (h : m.wf = true) : (m.write a v).wf = true := by
  rw [Memory.wf_iff] at h ⊢
  induction m with
  | nil => simp [Memory.write]
  | cons c rest ih =>
    obtain ⟨b, w⟩ := c
    simp only [List.map_cons, List.pairwise_cons] at h
    by_cases h₁ : a < b
    · simp only [Memory.write, h₁, if_true, List.map_cons, List.pairwise_cons, List.mem_cons]
      exact ⟨fun k hk => hk.elim (fun e => e ▸ h₁) fun hk => Nat.lt_trans h₁ (h.1 k hk), h.1, h.2⟩
    · by_cases h₂ : a = b
      · subst h₂
        simpa [Memory.write] using h
      · simp only [Memory.write, h₁, h₂, if_false, List.map_cons, List.pairwise_cons]
        refine ⟨fun k hk => ?_, ih h.2⟩
        rcases (Memory.mem_keys_write rest a v k).1 hk with rfl | hk
        · omega
        · exact h.1 k hk

theorem Memory.wf_write16 (m : Memory) (off : Nat) (v : Half) (h : m.wf = true) : (m.write16 off v).wf = true :=
  Memory.wf_write _ _ _ (Memory.wf_write _ _ _ h)

theorem Memory.wf_writeSlots (slots : List Nat) (m : Memory) (v : Half) (h : m.wf = true) :
    (m.writeSlots slots v).wf = true := by
  induction slots generalizing m with
  | nil => exact h
  | cons i rest ih => exact ih _ (Memory.wf_write16 _ _ _ h)

theorem Memory.wf_powerUp (c : Config) : (State.powerUp c).surf.wf = true := rfl

theorem Memory.wf_reset : State.reset.surf.wf = true := rfl

/-- Two surfaces in canonical form that read the same at every offset are the same surface. -/
theorem Memory.ext_read (m m' : Memory) (h : m.wf = true) (h' : m'.wf = true) (hr : ∀ a, m.read a = m'.read a) :
    m = m' := by
  have none_below : ∀ (l : Memory) (a : Nat), (∀ k ∈ l.map (·.1), a < k) → l.read a = none := by
    intro l a hl
    induction l with
    | nil => rfl
    | cons c rest ih =>
      obtain ⟨b, w⟩ := c
      have hb : a < b := hl b (by simp)
      rw [Memory.read, if_neg (by omega)]
      exact ih fun k hk => hl k (by simp at hk ⊢; exact .inr hk)
  rw [Memory.wf_iff] at h h'
  induction m generalizing m' with
  | nil =>
    cases m' with
    | nil => rfl
    | cons c rest => have := hr c.1; simp [Memory.read] at this
  | cons c rest ih =>
    obtain ⟨a, v⟩ := c
    cases m' with
    | nil => have := hr a; simp [Memory.read] at this
    | cons c' rest' =>
      obtain ⟨b, w⟩ := c'
      simp only [List.map_cons, List.pairwise_cons] at h h'
      have hab : a = b := by
        rcases Nat.lt_trichotomy a b with hlt | heq | hgt
        · have := hr a
          rw [none_below ((b, w) :: rest') a (by
            intro k hk
            rcases List.mem_cons.1 hk with rfl | hk
            · exact hlt
            · exact Nat.lt_trans hlt (h'.1 k hk))] at this
          simp [Memory.read] at this
        · exact heq
        · have := hr b
          rw [none_below ((a, v) :: rest) b (by
            intro k hk
            rcases List.mem_cons.1 hk with rfl | hk
            · exact hgt
            · exact Nat.lt_trans hgt (h.1 k hk))] at this
          simp [Memory.read] at this
      subst hab
      have hvw : v = w := by simpa [Memory.read] using hr a
      subst hvw
      rw [ih rest' h.2 h'.2 fun k => ?_]
      by_cases hk : k = a
      · subst hk
        rw [none_below rest k h.1, none_below rest' k h'.1]
      · simpa [Memory.read, hk] using hr k

end Sys2Proof.Machine
end

