-- ==== Sys2Proof/Laws/Ops.lean ====
section
/-! SUPPORT. For each shared operation one lemma that says once everything it can do. -/

namespace Sys2Proof.Machine

/-! ### Outcomes -/

@[simp] theorem onNext_next (s : State) (f : State → Result) : onNext (.next s) f = f s := rfl

/-- No outcome is a fault: the type of faults is empty (R196). -/
theorem Result.no_fault {P : Prop} {o : Result} {r : Fault} (_ : o = .fault r) : P := nomatch r

theorem onNext_eq_next {o : Result} {f : State → Result} {t : State} :
    onNext o f = .next t ↔ ∃ s, o = .next s ∧ f s = .next t := by
  cases o <;> simp [onNext]

theorem onNext_assoc (o : Result) (f g : State → Result) :
    onNext (onNext o f) g = onNext o fun s => onNext (f s) g := by
  cases o <;> rfl

/-! ### The write primitive -/

/-- `SurfWrite16` answers a next state exactly inside the mapping, and then writes the two bytes and the event. -/
theorem surfWrite16_eq_next {off : Nat} {v : Half} {s t : State} :
    surfWrite16 off v s = .next t ↔
      off + 1 < s.cfg.mappedSize ∧
        t = { s with surf := s.surf.write16 off v, history := s.history ++ [.surfWrite off v] } := by
  unfold surfWrite16
  split
  · rename_i h
    simp only [h, true_and]
    constructor
    · intro e; cases e; rfl
    · rintro rfl; rfl
  · rename_i h
    simp [h]

theorem surfWrite16_inside {off : Nat} {v : Half} {s : State} (h : off + 1 < s.cfg.mappedSize) :
    surfWrite16 off v s =
      .next { s with surf := s.surf.write16 off v, history := s.history ++ [.surfWrite off v] } :=
  surfWrite16_eq_next.2 ⟨h, rfl⟩

/-! ### The order of a fill -/

/-- Whatever the free ranks are, a fill visits every slot exactly once. -/
theorem slotOrder_perm (k n : Nat) : (slotOrder k n).Perm (List.range n) := List.perm_insertionSort _ _

theorem mem_slotOrder (k n i : Nat) : i ∈ slotOrder k n ↔ i < n := by
  rw [(slotOrder_perm k n).mem_iff, List.mem_range]

/-! ### The two operations of the renderer -/

/-- `fillWhole` always answers a next state; what it leaves. -/
theorem fillWhole_eq_next {c : Half} {s t : State} :
    fillWhole c s = .next t ↔
      t = { s with
        surf := s.surf.writeSlots (List.range (nslots s.cfg)) c
        history := s.history ++ (slotOrder s.fills (nslots s.cfg)).map fun i => .surfWrite (2 * i) c
        fills := s.fills + 1 } := by
  constructor
  · intro e; cases e; rfl
  · rintro rfl; rfl

/-- The byte at offset `a` after a fill. -/
theorem fillWhole_read {c : Half} {s t : State} (h : fillWhole c s = .next t) (a : Nat) :
    t.surf.read a =
      if a / 2 < nslots s.cfg then some (if a % 2 = 0 then lowByte c else highByte c) else s.surf.read a := by
  rw [fillWhole_eq_next.1 h]
  simp only [Memory.read_writeSlots, List.mem_range]

/-- `setPixel` answers a next state in two cases: out of bounds, nothing; in bounds and inside the mapping, one
write. -/
theorem setPixel_eq_next {x y c : Half} {s t : State} :
    setPixel x y c s = .next t ↔
      (InBounds s.cfg x y ∧ pixelOffset s.cfg x y + 1 < s.cfg.mappedSize ∧
        t = { s with
          surf := s.surf.write16 (pixelOffset s.cfg x y) c
          history := s.history ++ [.surfWrite (pixelOffset s.cfg x y) c] }) ∨
      (¬ InBounds s.cfg x y ∧ t = s) := by
  unfold setPixel
  by_cases h : InBounds s.cfg x y
  · rw [if_pos h, surfWrite16_eq_next]
    constructor
    · rintro ⟨ho, ht⟩
      exact .inl ⟨h, ho, ht⟩
    · rintro (⟨-, ho, ht⟩ | ⟨hn, -⟩)
      · exact ⟨ho, ht⟩
      · exact absurd h hn
  · rw [if_neg h]
    constructor
    · intro e
      cases e
      exact .inr ⟨h, rfl⟩
    · rintro (⟨hy, -⟩ | ⟨-, rfl⟩)
      · exact absurd hy h
      · rfl

/-- Under the launch premises an in-bounds pixel lies inside the mapping, at an even offset (R61, R162, R163). -/
theorem pixelOffset_inside {c : Config} {x y : Half} (hc : LaunchOk c) (h : InBounds c x y) :
    pixelOffset c x y + 1 < c.mappedSize ∧ pixelOffset c x y % 2 = 0 := by
  obtain ⟨h1, ⟨h2, h2'⟩, -, h4⟩ := hc
  obtain ⟨hx, hy⟩ := h
  have hrow : y.toNat * c.stride ≤ (c.height - 1) * c.stride := Nat.mul_le_mul_right _ (by omega)
  have hpos := h4 (by omega) (by omega)
  have heven : (y.toNat * c.stride) % 2 = 0 := by rw [Nat.mul_mod, h2]; simp
  unfold pixelOffset
  rw [h1] at hpos ⊢
  omega

end Sys2Proof.Machine
end

