-- ==== Sys2Proof/Laws/Step.lean ====
section
/-! SUPPORT. What a step can do, said once: exec command by command, and the step case by case. -/

namespace Sys2Proof.Machine

/-- Everything exec can do when it answers a next state: a fill with the colour of its command, a pixel in bounds, or
nothing. -/
theorem exec_cases {i : Instr} {s t : State} (h : exec i s = .next t) :
    (∃ c, fillWhole c s = .next t) ∨ (∃ x y c, i = .setPixel x y c ∧ setPixel x y c s = .next t) ∨ t = s := by
  cases i with
  | fillBlank _ => exact .inl ⟨_, h⟩
  | setPixel x y c => exact .inr (.inl ⟨x, y, c, rfl, h⟩)
  | fillRed _ => exact .inl ⟨_, h⟩
  | fillGreen _ => exact .inl ⟨_, h⟩
  | fillBlue _ => exact .inl ⟨_, h⟩
  | fillWhite _ => exact .inl ⟨_, h⟩
  | fillColour _ c => exact .inl ⟨c, h⟩
  | resolution _ => cases h; exact .inr (.inr rfl)
  | unknown08 _ _ => cases h; exact .inr (.inr rfl)
  | unknown10 _ _ => cases h; exact .inr (.inr rfl)
  | unknown20 _ _ => cases h; exact .inr (.inr rfl)
  | unknown40 _ _ => cases h; exact .inr (.inr rfl)
  | unknown80 _ _ => cases h; exact .inr (.inr rfl)

/-- `advance` case by case (R122). -/
theorem advance_cases (s : State) :
    (s.ni = 0#1 ∧ advance s = { s with ni := 1#1, sub := .s1 }) ∨
    (s.ni ≠ 0#1 ∧ s.bi < 6#3 ∧
      advance s = { s with pkt := s.pkt.setByte s.bi s.acc, bi := s.bi + 1#3, ni := 0#1, sub := .s1 }) ∨
    (s.ni ≠ 0#1 ∧ ¬ s.bi < 6#3 ∧ advance s = { s with pkt := s.pkt.setByte s.bi s.acc, st := .done }) := by
  unfold advance
  by_cases h : s.ni = 0#1
  · exact .inl ⟨h, if_pos h⟩
  · rw [if_neg h]
    by_cases h' : s.bi < 6#3
    · exact .inr (.inl ⟨h, h', if_pos h'⟩)
    · exact .inr (.inr ⟨h, h', if_neg h'⟩)

/-- The dispatch at `Done` answers a next state in two ways: it ran the packet's command (`Local`), or it only handed
the packet on. -/
theorem dispatchPacket_cases {s t : State} (h : dispatchPacket s = .next t) :
    (s.cfg.deploy = .localDeploy ∧ ∃ u, exec (decode s.pkt) (emit (.packet s.pkt) s) = .next u ∧
      t = { u with st := .idle }) ∨
    (s.cfg.deploy ≠ .localDeploy ∧ t = { emit (.packet s.pkt) s with st := .idle }) := by
  unfold dispatchPacket at h
  obtain ⟨u, hu, ht⟩ := onNext_eq_next.1 h
  cases ht
  by_cases hd : s.cfg.deploy = .localDeploy
  · rw [if_pos hd] at hu
    exact .inl ⟨hd, u, hu, rfl⟩
  · rw [if_neg hd] at hu
    cases hu
    exact .inr ⟨hd, rfl⟩

/-- The step of a relay receiver case by case (R182). -/
theorem pktInStep_cases {s t : State} (h : pktInStep s = .next t) :
    (s.inp.pktIn = none ∧ t = s) ∨
    (∃ b, s.inp.pktIn = some b ∧ s.inp.cancel = true ∧ t = halt s) ∨
    (∃ b, s.inp.pktIn = some b ∧ s.inp.cancel = false ∧ exec (decode b) (acceptPacket b s) = .next t) := by
  unfold pktInStep at h
  split at h
  · rename_i hn
    cases h
    exact .inl ⟨hn, rfl⟩
  · rename_i b hb
    split at h
    · rename_i hc
      cases h
      exact .inr (.inl ⟨b, hb, hc, rfl⟩)
    · rename_i hc
      exact .inr (.inr ⟨b, hb, by simpa using hc, h⟩)

/-- Everything one step of `RX` can do when it answers a next state. -/
theorem rxStep_cases {s t : State} (h : rxStep s = .next t) :
    (s.inp.rst = true ∧ t = applyRst s) ∨
    (s.inp.rst = false ∧ s.st = .halted ∧ t = s) ∨
    (s.inp.rst = false ∧ s.st ≠ .halted ∧ s.cfg.deploy = .relayReceiver ∧ pktInStep s = .next t) ∨
    (s.inp.rst = false ∧ s.cfg.deploy ≠ .relayReceiver ∧ s.st = .idle ∧ t = pollIdle s) ∨
    (s.inp.rst = false ∧ s.cfg.deploy ≠ .relayReceiver ∧ s.st = .awaitNibble ∧ t = nibbleStep s) ∨
    (s.inp.rst = false ∧ s.cfg.deploy ≠ .relayReceiver ∧ s.st = .done ∧ dispatchPacket s = .next t) := by
  unfold rxStep at h
  split at h
  · rename_i hr
    cases h
    exact .inl ⟨hr, rfl⟩
  · rename_i hr
    have hr' : s.inp.rst = false := by simpa using hr
    split at h
    · rename_i hh
      cases h
      exact .inr (.inl ⟨hr', hh, rfl⟩)
    · rename_i hh
      split at h
      · rename_i hd
        exact .inr (.inr (.inl ⟨hr', hh, hd, h⟩))
      · rename_i hd
        unfold lineStep at h
        split at h
        · rename_i hs
          cases h
          exact .inr (.inr (.inr (.inl ⟨hr', hd, hs, rfl⟩)))
        · rename_i hs
          cases h
          exact .inr (.inr (.inr (.inr (.inl ⟨hr', hd, hs, rfl⟩))))
        · rename_i hs
          exact .inr (.inr (.inr (.inr (.inr ⟨hr', hd, hs, h⟩))))
        · rename_i hs
          exact absurd hs hh

/-- A step that answers a next state ran under the launch premises; the next state is `RX`'s, at the environment's next
levels. -/
theorem step_eq_next {s t : State} :
    step s = .next t ↔ LaunchOk s.cfg ∧ ∃ u, rxStep s = .next u ∧ t = nextLevels u := by
  unfold step machineStep
  by_cases hc : LaunchOk s.cfg
  · rw [if_pos hc, onNext_eq_next]
    constructor
    · rintro ⟨u, hu, ht⟩
      cases ht
      exact ⟨hc, u, hu, rfl⟩
    · rintro ⟨-, u, hu, rfl⟩
      exact ⟨u, hu, rfl⟩
  · rw [if_neg hc]
    exact ⟨nofun, fun h => absurd h.1 hc⟩

theorem step_of_rxStep {s u : State} (hc : LaunchOk s.cfg) (hu : rxStep s = .next u) :
    step s = .next (nextLevels u) := step_eq_next.2 ⟨hc, u, hu, rfl⟩

/-! ### Runs -/

@[simp] theorem run_zero (s : State) : run 0 s = .next s := rfl

theorem run_succ (n : Nat) (s : State) : run (n + 1) s = onNext (step s) (run n) := rfl

theorem run_succ_of_step {n : Nat} {s t : State} (h : step s = .next t) : run (n + 1) s = run n t := by
  rw [run_succ, h]; rfl

theorem run_add (m n : Nat) (s : State) : run (m + n) s = onNext (run m s) (run n) := by
  induction m generalizing s with
  | zero => simp
  | succ m ih =>
    rw [Nat.succ_add, run_succ, run_succ, onNext_assoc]
    congr
    funext t
    exact ih t

theorem core_run_succ (M : Host.Core) (n : Nat) (s : M.State) :
    M.run (n + 1) s = (match M.step s with
      | .next t => M.run n t
      | .fault r => .fault r
      | .refused r => .refused r) := rfl

/-- `run` is the host's run of the core. -/
theorem run_eq_core (n : Nat) (s : State) : Host.Core.run core n s = run n s := by
  induction n generalizing s with
  | zero => rfl
  | succ n ih =>
    rw [core_run_succ core n s]
    rcases h : core.step s with t | r | r
    · rw [run_succ_of_step (show step s = .next t from h)]
      exact ih t
    · exact nomatch r
    · rw [run_succ, show step s = .refused r from h]
      rfl

end Sys2Proof.Machine
end

