-- ==== Sys2Proof/Laws/PerInstr.lean ====
section
/-! SUPPORT. Facts about every instruction as syntax, one lemma per constructor. Family `TableRow`: a well-formed
instruction's packet carries a type byte that its own row of spec/opcode_table.json matches (R86). -/

namespace Sys2Proof.Laws.TableRow

/-- Some row of the table has the instruction's mnemonic, and it matches the type byte of the instruction's packet. -/
def Statement (i : Instr) : Prop :=
  i.WellFormed → ∃ r ∈ opcodeTable, r.mnemonic = i.mnemonic ∧ r.matchesType (encode i).b0 = true

theorem fillBlank (ignored : BitVec 48) : Statement (.fillBlank ignored) :=
  fun _ => ⟨⟨"FillBlank", 0xFF, 0x00⟩, by decide, rfl, by simp [OpcodeRow.matchesType, encode, Packet.ofType]⟩

theorem setPixel (x y colour : Half) : Statement (.setPixel x y colour) :=
  fun _ => ⟨⟨"SetPixel", 0xFF, 0x01⟩, by decide, rfl, by simp [OpcodeRow.matchesType, encode]⟩

theorem fillRed (ignored : BitVec 48) : Statement (.fillRed ignored) :=
  fun _ => ⟨⟨"FillRed", 0xFF, 0x02⟩, by decide, rfl, by simp [OpcodeRow.matchesType, encode, Packet.ofType]⟩

theorem fillGreen (ignored : BitVec 48) : Statement (.fillGreen ignored) :=
  fun _ => ⟨⟨"FillGreen", 0xFF, 0x03⟩, by decide, rfl, by simp [OpcodeRow.matchesType, encode, Packet.ofType]⟩

theorem fillBlue (ignored : BitVec 48) : Statement (.fillBlue ignored) :=
  fun _ => ⟨⟨"FillBlue", 0xFF, 0x04⟩, by decide, rfl, by simp [OpcodeRow.matchesType, encode, Packet.ofType]⟩

theorem fillWhite (ignored : BitVec 48) : Statement (.fillWhite ignored) :=
  fun _ => ⟨⟨"FillWhite", 0xFF, 0x05⟩, by decide, rfl, by simp [OpcodeRow.matchesType, encode, Packet.ofType]⟩

theorem fillColour (ignored : BitVec 32) (colour : Half) : Statement (.fillColour ignored colour) :=
  fun _ => ⟨⟨"FillColour", 0xFF, 0x06⟩, by decide, rfl, by simp [OpcodeRow.matchesType, encode, Packet.ofType]⟩

theorem resolution (reserved : BitVec 48) : Statement (.resolution reserved) :=
  fun _ => ⟨⟨"Resolution", 0xFF, 0x07⟩, by decide, rfl, by simp [OpcodeRow.matchesType, encode, Packet.ofType]⟩

theorem unknown08 (code : Byte) (ignored : BitVec 48) : Statement (.unknown08 code ignored) := by
  refine fun h => ⟨⟨"Unknown.08-0F", 0xF8, 0x08⟩, by decide, rfl, ?_⟩
  revert h
  simp only [Instr.WellFormed, Instr.wellFormed, encode, Packet.ofType, OpcodeRow.matchesType]
  revert code
  decide

theorem unknown10 (code : Byte) (ignored : BitVec 48) : Statement (.unknown10 code ignored) := by
  refine fun h => ⟨⟨"Unknown.10-1F", 0xF0, 0x10⟩, by decide, rfl, ?_⟩
  revert h
  simp only [Instr.WellFormed, Instr.wellFormed, encode, Packet.ofType, OpcodeRow.matchesType]
  revert code
  decide

theorem unknown20 (code : Byte) (ignored : BitVec 48) : Statement (.unknown20 code ignored) := by
  refine fun h => ⟨⟨"Unknown.20-3F", 0xE0, 0x20⟩, by decide, rfl, ?_⟩
  revert h
  simp only [Instr.WellFormed, Instr.wellFormed, encode, Packet.ofType, OpcodeRow.matchesType]
  revert code
  decide

theorem unknown40 (code : Byte) (ignored : BitVec 48) : Statement (.unknown40 code ignored) := by
  refine fun h => ⟨⟨"Unknown.40-7F", 0xC0, 0x40⟩, by decide, rfl, ?_⟩
  revert h
  simp only [Instr.WellFormed, Instr.wellFormed, encode, Packet.ofType, OpcodeRow.matchesType]
  revert code
  decide

theorem unknown80 (code : Byte) (ignored : BitVec 48) : Statement (.unknown80 code ignored) := by
  refine fun h => ⟨⟨"Unknown.80-FF", 0x80, 0x80⟩, by decide, rfl, ?_⟩
  revert h
  simp only [Instr.WellFormed, Instr.wellFormed, encode, Packet.ofType, OpcodeRow.matchesType]
  revert code
  decide

end Sys2Proof.Laws.TableRow
end

