-- ==== Sys2Proof/Tests/Slice0.lean ====
section
/-! SUPPORT. The model's own tests, their expected values taken from spec/95_test_vectors.md or worked out by hand from the
rule named, and for every statement with hypotheses a witness that meets them all. -/

open Sys2Proof Sys2Proof.Machine

set_option maxRecDepth 20000

namespace Sys2Proof.Tests

/-! ### WellFormed: an ill-formed term for each check -/

theorem test_unknown08_refuses_its_neighbours :
    (Instr.unknown08 0x07 0).wellFormed = false ∧ (Instr.unknown08 0x10 0).wellFormed = false := by decide

theorem test_unknown10_refuses_its_neighbours :
    (Instr.unknown10 0x0F 0).wellFormed = false ∧ (Instr.unknown10 0x20 0).wellFormed = false := by decide

theorem test_unknown20_refuses_its_neighbours :
    (Instr.unknown20 0x1F 0).wellFormed = false ∧ (Instr.unknown20 0x40 0).wellFormed = false := by decide

theorem test_unknown40_refuses_its_neighbours :
    (Instr.unknown40 0x3F 0).wellFormed = false ∧ (Instr.unknown40 0x80 0).wellFormed = false := by decide

theorem test_unknown80_refuses_its_neighbour : (Instr.unknown80 0x7F 0).wellFormed = false := by decide

/-! ### Decode: a word of every constructor, written from the spec's encoding (95_test_vectors.md L1.1, L2.1, L2.7) -/

theorem test_decode_fillBlank_ignores_bytes : decodeTableWord 56 0x06050403020100 = some (.fillBlank 0x060504030201) := by
  decide

theorem test_decode_setPixel_little_endian : decodeTableWord 56 0x01000001010001 = some (.setPixel 256 1 0x0100) := by
  decide

theorem test_decode_setPixel_example : decodeTableWord 56 0xF8000014000A01 = some (.setPixel 10 20 0xF800) := by decide

theorem test_decode_fillRed : decodeTableWord 56 0x00000000000002 = some (.fillRed 0) := by decide

theorem test_decode_fillGreen : decodeTableWord 56 0x00000000000003 = some (.fillGreen 0) := by decide

theorem test_decode_fillBlue : decodeTableWord 56 0x00000000000004 = some (.fillBlue 0) := by decide

theorem test_decode_fillWhite : decodeTableWord 56 0x00000000000005 = some (.fillWhite 0) := by decide

theorem test_decode_fillColour : decodeTableWord 56 0x80010000000006 = some (.fillColour 0 0x8001) := by decide

theorem test_decode_resolution : decodeTableWord 56 0x00000000000007 = some (.resolution 0) := by decide

theorem test_decode_unknown08 : decodeTableWord 56 0x06050403020108 = some (.unknown08 0x08 0x060504030201) := by decide

theorem test_decode_unknown10 : decodeTableWord 56 0x00000000000010 = some (.unknown10 0x10 0) := by decide

theorem test_decode_unknown20 : decodeTableWord 56 0x00000000000020 = some (.unknown20 0x20 0) := by decide

theorem test_decode_unknown40 : decodeTableWord 56 0x0000000000007F = some (.unknown40 0x7F 0) := by decide

theorem test_decode_unknown80 : decodeTableWord 56 0x00000000000081 = some (.unknown80 0x81 0) := by decide

theorem test_decode_too_wide : decodeTableWord 64 0x100000000000000 = none := by decide

/-- L1.8: nibble 0 `1000` and nibble 1 `1111` give `0xF8`. -/
theorem test_join : joinNibbles 0x8 0xF = 0xF8 := by decide

/-! ### One step per command, on `CFG_A` (95_test_vectors.md L1.2, L1.3, L2.5, L2.6) -/

/-- The reset state with one byte `0xAA` already at offset 38 and a table word about to run. -/
def before (w : Nat) : State := { State.reset with surf := [(38, 0xAA)] }.withFetchWord 56 w

/-- The surface after the next step: the bytes at the first slot, at a padding slot and at the last slot, and one past
the end. -/
def corners (s : State) : Option (List (Option Byte)) :=
  (stateAfter (step s)).map fun t => [0, 1, 8, 9, 38, 39, 40].map t.surf.read

theorem test_fillBlank : corners (before 0x00) = some [some 0, some 0, some 0, some 0, some 0, some 0, none] := by decide

theorem test_fillRed :
    corners (before 0x02) = some [some 0, some 0xF8, some 0, some 0xF8, some 0, some 0xF8, none] := by decide

theorem test_fillGreen :
    corners (before 0x03) = some [some 0xE0, some 7, some 0xE0, some 7, some 0xE0, some 7, none] := by decide

theorem test_fillBlue :
    corners (before 0x04) = some [some 0x1F, some 0, some 0x1F, some 0, some 0x1F, some 0, none] := by decide

theorem test_fillWhite :
    corners (before 0x05) = some [some 0xFF, some 0xFF, some 0xFF, some 0xFF, some 0xFF, some 0xFF, none] := by decide

theorem test_fillColour :
    corners (before 0x12340000000006) =
      some [some 0x34, some 0x12, some 0x34, some 0x12, some 0x34, some 0x12, none] := by decide

/-- L2.5: `(3, 2)` is the last visible pixel, at offset 26. -/
theorem test_setPixel_last_visible :
    (stateAfter (step (before 0xABCD0002000301))).map (fun t => (t.surf, t.history)) =
      some ([(26, 0xCD), (27, 0xAB), (38, 0xAA)], [.reset, .packet ⟨1, 3, 0, 2, 0, 0xCD, 0xAB⟩, .surfWrite 26 0xABCD]) := by
  decide

/-- L2.5: `(4, 0)` is out of bounds, though offset 8 lies inside the mapping. -/
theorem test_setPixel_out_of_bounds :
    (stateAfter (step (before 0xABCD0000000401))).map (fun t => (t.surf, t.st)) = some ([(38, 0xAA)], .idle) := by decide

theorem test_resolution :
    (stateAfter (step (before 0x07))).map (fun t => (t.surf, t.st)) = some ([(38, 0xAA)], .idle) := by decide

theorem test_unknown08 :
    (stateAfter (step (before 0x0F))).map (fun t => (t.surf, t.st)) = some ([(38, 0xAA)], .idle) := by decide

theorem test_unknown10 :
    (stateAfter (step (before 0x1F))).map (fun t => (t.surf, t.st)) = some ([(38, 0xAA)], .idle) := by decide

theorem test_unknown20 :
    (stateAfter (step (before 0x3F))).map (fun t => (t.surf, t.st)) = some ([(38, 0xAA)], .idle) := by decide

theorem test_unknown40 :
    (stateAfter (step (before 0x7F))).map (fun t => (t.surf, t.st)) = some ([(38, 0xAA)], .idle) := by decide

/-- L1.3: type 200 is a no-op. -/
theorem test_unknown80 :
    (stateAfter (step (before 0xFFFFFFFFFFFFC8))).map (fun t => (t.surf, t.st)) = some ([(38, 0xAA)], .idle) := by decide

/-! ### One step of the handshake (95_test_vectors.md L2.2, L2.4, L2.8) -/

/-- Levels with both `HOST` inputs at 0. -/
def lines (start pclk : Bool) (d : Nibble) : Inputs := { Inputs.quiet with start := start, pclk := pclk, d := d }

/-- A nibble phase of byte `bi`, at sub-phase `sub`, on these levels; the packet buffer as at L2.4 c. -/
def phase (sub : Sub) (bi : BitVec 3) (ni : BitVec 1) (i : Inputs) : State :=
  { State.reset with st := .awaitNibble, sub := sub, bi := bi, ni := ni, pkt := ⟨1, 0, 0, 0, 0, 0, 0⟩, inp := i }

/-- L2.2 step 1: the poll that reads `start` low; the high `pclk` is not read. -/
theorem test_idle_starts :
    (stateAfter (step { State.reset with inp := lines false true 1 })).map (fun t => (t.st, t.sub, t.history)) =
      some (.awaitNibble, .s1, [.reset, .txnStart]) := by decide

/-- L2.2 step 2. -/
theorem test_clock_high :
    (stateAfter (step (phase .s1 0 0 (lines false true 1)))).map (fun t => (t.sub, t.cnt)) = some (.s2, 1) := by decide

/-- L2.2 step 15, with the nibble of L1.8: nibble 1 goes to bits 7 to 4. -/
theorem test_sample_high_nibble :
    (stateAfter (step { phase .s4 0 1 (lines false true 0xF) with acc := 0x08 })).map (fun t => (t.acc, t.sub)) =
      some (0xF8, .s5a) := by decide

/-- L2.2 step 19: the end of a byte. -/
theorem test_advance :
    (stateAfter (step { phase .s6 1 1 (lines false false 0) with acc := 0x5A })).map
      (fun t => (t.pkt.b1, t.bi, t.ni, t.sub)) = some (0x5A, 2, 0, .s1) := by decide

/-- L2.4 a: cancel beats start. -/
theorem test_cancel_beats_start :
    (stateAfter (step { State.reset with inp := { lines false false 0 with cancel := true } })).map
      (fun t => (t.st, t.history)) = some (.halted, [.reset, .halt .idle .s1 0 0]) := by decide

/-- L2.4 e: cancel in the last `S6` discards the complete packet. -/
theorem test_cancel_before_dispatch :
    (stateAfter (step (phase .s6 6 1 { lines false false 0 with cancel := true }))).map (fun t => (t.st, t.surf)) =
      some (.halted, []) := by decide

/-- L2.4 h: reset beats cancel and cuts the ack pulse short. -/
theorem test_reset_beats_cancel :
    (stateAfter (step { phase .s5b 3 1 { lines false false 0 with cancel := true, rst := true } with ack := true })).map
      (fun t => (t.st, t.ack, t.pkt, t.history)) = some (.idle, false, ⟨0, 0, 0, 0, 0, 0, 0⟩, [.reset]) := by decide

/-! ### Witnesses: what the statements' hypotheses ask can be met -/

/-- A block in `Done` with a packet, wired as given. -/
def doneWith (d : Deploy) (b : Packet) : State :=
  { State.reset with st := .done, pkt := b, cfg := { Config.reference with deploy := d } }

/-- A relay receiver offered a packet (or none). -/
def receiver (b : Option Packet) (cancel : Bool) : State :=
  { State.reset with
    cfg := { Config.reference with deploy := .relayReceiver }
    inp := { Inputs.quiet with pktIn := b, cancel := cancel } }

theorem witness_DecodeUndoesEncode :
    (Instr.unknown08 0x08 1).WellFormed ∧ (Instr.unknown08 0x0F 0).WellFormed ∧ (Instr.unknown10 0x10 0).WellFormed ∧
    (Instr.unknown10 0x1F 0).WellFormed ∧ (Instr.unknown20 0x20 0).WellFormed ∧ (Instr.unknown20 0x3F 0).WellFormed ∧
    (Instr.unknown40 0x40 0).WellFormed ∧ (Instr.unknown40 0x7F 0).WellFormed ∧ (Instr.unknown80 0x80 0).WellFormed ∧
    (Instr.unknown80 0xFF 0).WellFormed ∧ (Instr.setPixel 1 2 3).WellFormed := by decide

/-- Each clause at its type byte; the last one at both ends of its range. -/
theorem witness_InterpretFollowsTheCodeMap :
    (0x00 : Byte).toNat = 0 ∧ (0x01 : Byte).toNat = 1 ∧ (0x02 : Byte).toNat = 2 ∧ (0x03 : Byte).toNat = 3 ∧
    (0x04 : Byte).toNat = 4 ∧ (0x05 : Byte).toNat = 5 ∧ (0x06 : Byte).toNat = 6 ∧ (0x07 : Byte).toNat = 7 ∧
    8 ≤ (0x08 : Byte).toNat ∧ 8 ≤ (0xFF : Byte).toNat ∧ ¬ 8 ≤ (0x07 : Byte).toNat := by decide

theorem witness_OnlySevenBytesDecode :
    ([1, 2, 3, 4, 5, 6, 7] : List Byte).length = 7 ∧ ([1, 2, 3, 4, 5, 6] : List Byte).length ≠ 7 ∧
    ([1, 2, 3, 4, 5, 6, 7, 8] : List Byte).length ≠ 7 := by decide

/-- The last slot and the first offset past the slots; a packet of each type; a second fill. -/
theorem witness_FixedFillsSetEverySlot :
    (19 < State.reset.cfg.mappedSize / 2 ∧ 2 * (State.reset.cfg.mappedSize / 2) ≤ 40) ∧
    (∃ t u, exec (.fillRed 0) State.reset = .next t ∧ exec (.fillRed 0) t = .next u) ∧
    (∃ p0 p2 p3 p4 p5 : Packet, p0.b0 = 0 ∧ p2.b0 = 2 ∧ p3.b0 = 3 ∧ p4.b0 = 4 ∧ p5.b0 = 5) :=
  ⟨by decide, ⟨_, _, rfl, rfl⟩, encode (.fillBlank 0), encode (.fillRed 0), encode (.fillGreen 0), encode (.fillBlue 0),
    encode (.fillWhite 0), by decide⟩

theorem witness_FillColourSetsEverySlot :
    (19 < State.reset.cfg.mappedSize / 2 ∧ 2 * (State.reset.cfg.mappedSize / 2) ≤ 40) ∧
    (encode (.fillColour 0 0x8001)).b0 = 6 := by decide

/-- The premises with a pixel in bounds (the last visible one), with one out of bounds in each coordinate, and type 1. -/
theorem witness_SetPixelWritesItsPixelOrNothing :
    LaunchOk State.reset.cfg ∧
    ((3 : Half).toNat < State.reset.cfg.width ∧ (2 : Half).toNat < State.reset.cfg.height) ∧
    ¬ ((4 : Half).toNat < State.reset.cfg.width ∧ (2 : Half).toNat < State.reset.cfg.height) ∧
    ¬ ((3 : Half).toNat < State.reset.cfg.width ∧ (3 : Half).toNat < State.reset.cfg.height) ∧
    (encode (.setPixel 3 2 0)).b0 = 1 := by decide

theorem witness_ResolutionHasNoEffect : (encode (.resolution 5)).b0 = 7 := by decide

theorem witness_UnknownHasNoEffect :
    (∃ s, LinesLive s ∧ s.st = .done ∧ 8 ≤ s.pkt.b0.toNat) ∧ 8 ≤ (0x08 : Byte).toNat ∧ 8 ≤ (0xFF : Byte).toNat :=
  ⟨⟨doneWith .localDeploy ⟨0x08, 0, 0, 0, 0, 0, 0⟩, by decide⟩, by decide⟩

/-- A command that writes, and one of its events. -/
theorem witness_CommandsChangeOnlyTheSurface :
    LaunchOk State.reset.cfg ∧ ∃ t, exec (.setPixel 3 2 0xABCD) State.reset = .next t ∧
      t.history = [.reset, .surfWrite 26 0xABCD] :=
  ⟨by decide, _, rfl, rfl⟩

/-- Packets that differ only in bytes their command does not read, one pair for each of the three cases. -/
theorem witness_FieldsNotReadHaveNoEffect :
    (∃ p q : Packet, p ≠ q ∧ p.b0 = q.b0 ∧ p.b0 = 6 ∧ p.colourField = q.colourField) ∧
    (∃ p q : Packet, p ≠ q ∧ p.b0 = q.b0 ∧ p.b0 ≠ 1 ∧ p.b0 ≠ 6) ∧
    (∃ p q : Packet, p.b0 = q.b0 ∧ p.b0 = 1 ∧ p.xField = q.xField ∧ p.yField = q.yField ∧
      p.colourField = q.colourField) :=
  ⟨⟨⟨6, 1, 2, 3, 4, 5, 6⟩, ⟨6, 0, 0, 0, 0, 5, 6⟩, by decide⟩, ⟨⟨2, 1, 2, 3, 4, 5, 6⟩, ⟨2, 0, 0, 0, 0, 0, 0⟩, by decide⟩,
    ⟨⟨1, 1, 2, 3, 4, 5, 6⟩, ⟨1, 1, 2, 3, 4, 5, 6⟩, by decide⟩⟩

theorem witness_CommandsAreIdempotent :
    State.reset.surf.wf = true ∧ ∃ t u, exec (.setPixel 3 2 0xABCD) State.reset = .next t ∧
      exec (.setPixel 3 2 0xABCD) t = .next u := ⟨rfl, _, _, rfl, rfl⟩

/-- The falling order, and a fill that answers. -/
theorem witness_FillOrderDoesNotMatter :
    State.reset.surf.wf = true ∧
    (List.range (State.reset.cfg.mappedSize / 2)).reverse.Perm (List.range (State.reset.cfg.mappedSize / 2)) ∧
    ∃ t, exec (.fillColour 0 0x1234) State.reset = .next t := ⟨rfl, List.reverse_perm _, _, rfl⟩

/-- Offsets 8 (padding) and 30 (off-screen) are no byte of a visible pixel of `CFG_A`. -/
theorem witness_SetPixelReachesOnlyVisiblePixels :
    (∃ t, exec (.setPixel 3 2 0xABCD) State.reset = .next t) ∧
    ∀ a ∈ [8, 30], ∀ X, X < State.reset.cfg.width → ∀ Y, Y < State.reset.cfg.height →
      a ≠ X * State.reset.cfg.bpp + Y * State.reset.cfg.stride ∧
      a ≠ X * State.reset.cfg.bpp + Y * State.reset.cfg.stride + 1 := ⟨⟨_, rfl⟩, by decide⟩

theorem witness_EveryCommandCompletes : LaunchOk State.reset.cfg := by decide

/-- The last offset inside the mapping, and the first one outside. -/
theorem witness_SurfWriteStoresLowByteFirst :
    38 + 1 < State.reset.cfg.mappedSize ∧ ¬ 39 + 1 < State.reset.cfg.mappedSize := by decide

theorem witness_IdlePollStartsHaltsOrStays :
    ∀ i ∈ [{ lines false true 1 with cancel := true }, lines false true 1, lines true true 1],
      LinesLive { State.reset with inp := i } := by decide

theorem witness_ClockHighWait :
    ∀ i ∈ [{ lines false true 1 with cancel := true }, lines false true 1, lines false false 1],
      InSub (phase .s1 0 0 i) .s1 := by decide

/-- `S2` on entry, with `rst` low for ever, and its last step. -/
theorem witness_SettleLastsItsInterval :
    (InSub { phase .s2 0 0 .quiet with cnt := 1 } .s2 ∧ (1 : Nat) = State.reset.cfg.tSettle ∧
      ∀ i ∈ levels { phase .s2 0 0 .quiet with cnt := 1 }, i.rst = false) ∧ InSub (phase .s2 0 0 .quiet) .s2 := by decide

theorem witness_SampleFillsTheAccumulator :
    InSub (phase .s4 0 0 (lines false true 1)) .s4 ∧ InSub (phase .s4 6 1 (lines false true 1)) .s4 := by decide

/-- `S5a` of the last nibble, a step that raises `ack`, and a step that enters `S5a`. -/
theorem witness_AckRisesAfterTheSample :
    InSub (phase .s5a 6 1 .quiet) .s5a ∧
    (∃ t, step (phase .s5a 6 1 .quiet) = .next t ∧ (phase .s5a 6 1 .quiet).ack = false ∧ t.ack = true) ∧
    ∃ t, step (phase .s4 6 1 .quiet) = .next t ∧ (t.st = .awaitNibble ∧ t.sub = .s5a) ∧
      ¬ ((phase .s4 6 1 .quiet).st = .awaitNibble ∧ (phase .s4 6 1 .quiet).sub = .s5a) :=
  ⟨by decide, ⟨_, rfl, rfl, rfl⟩, _, rfl, ⟨rfl, rfl⟩, by decide⟩

/-- `S5b` on entry with `T_ACK = 0`, the shortest hold, and with `T_ACK = 2`. -/
theorem witness_AckIsHeldItsInterval :
    ∀ k ∈ [0, 2], let s := { phase .s5b 0 0 .quiet with
        ack := true, cnt := k, cfg := { Config.reference with tAck := k } }
      InSub s .s5b ∧ s.ack = true ∧ s.cnt = s.cfg.tAck ∧ ∀ i ∈ levels s, i.rst = false := by decide

theorem witness_AckFallsBeforeTheClockLowWait : InSub { phase .s5c 0 0 .quiet with ack := true } .s5c := by decide

/-- Every clause: cancelled, clock still high, and clock low at nibble 0, at nibble 1 of bytes 5 and 6. -/
theorem witness_ClockLowWaitAdvances :
    (∀ s ∈ [phase .s6 0 0 { lines false false 1 with cancel := true }, phase .s6 0 0 (lines false true 1),
        phase .s6 0 0 (lines false false 1), phase .s6 5 1 (lines false false 1), phase .s6 6 1 (lines false false 1)],
      InSub s .s6) ∧ (5 : BitVec 3).toNat < 6 ∧ (6 : BitVec 3).toNat = 6 := by decide

theorem witness_DoneRunsTheDecodedCommand :
    ∀ d ∈ [Deploy.localDeploy, Deploy.relaySender],
      let s := doneWith d ⟨2, 0, 0, 0, 0, 0, 0⟩
      LaunchOk s.cfg ∧ s.inp.rst = false ∧ s.st = .done ∧ s.cfg.deploy = d ∧ s.cfg.deploy ≠ .relayReceiver := by decide

theorem witness_ReceiverRunsThePacketItTakes :
    ∀ c ∈ [true, false],
      let s := receiver (some ⟨2, 0, 0, 0, 0, 0, 0⟩) c
      LaunchOk s.cfg ∧ s.inp.rst = false ∧ s.cfg.deploy = .relayReceiver ∧ s.st ≠ .halted ∧
        s.inp.pktIn = some ⟨2, 0, 0, 0, 0, 0, 0⟩ ∧ s.inp.cancel = c := by decide

theorem witness_ReceiverIgnoresItsLines :
    let s := receiver none true
    LaunchOk s.cfg ∧ s.inp.rst = false ∧ s.cfg.deploy = .relayReceiver ∧ s.inp.pktIn = none := by decide

/-- `rst` beside `cancel`, in the middle of an ack pulse. -/
theorem witness_ResetWinsOverEverything :
    let s := { phase .s5b 3 1 { lines false true 1 with rst := true, cancel := true } with ack := true }
    LaunchOk s.cfg ∧ s.inp.rst = true := by decide

theorem witness_ResetValues : ∃ c, State.powerUp c = State.powerUp c ∧ c ≠ Config.reference :=
  ⟨{ Config.reference with tAck := 5 }, rfl, by decide⟩

/-- A halted block, with `cancel` back at 0 and a transaction on the lines. -/
theorem witness_HaltedHoldsUntilReset :
    let s := { State.reset with st := .halted, inp := lines false true 1 }
    LaunchOk s.cfg ∧ s.st = .halted ∧ ∀ i ∈ levels s, i.rst = false := by decide

/-- A step into `Halted`, from the lines and from `PKT_IN`, and a step out of it. -/
theorem witness_OnlyCancelHaltsAndOnlyResetResumes :
    (∃ t, step (phase .s1 3 0 { lines false true 1 with cancel := true }) = .next t ∧ t.st = .halted) ∧
    (∃ t, step (receiver (some ⟨2, 0, 0, 0, 0, 0, 0⟩) true) = .next t ∧ t.st = .halted) ∧
    (∃ t, step { State.reset with st := .halted, inp := { Inputs.quiet with rst := true } } = .next t ∧
      t.st ≠ .halted) := ⟨⟨_, rfl, rfl⟩, ⟨_, rfl, rfl⟩, ⟨_, rfl, by decide⟩⟩

/-- L2.4 d on entry to `S2`. -/
theorem witness_CancelHaltsWithinANibble :
    let s := { phase .s2 0 0 { lines false true 5 with cancel := true } with cnt := 1 }
    InSub s .s2 ∧ s.cnt = s.cfg.tSettle ∧ ∀ i ∈ levels s, i.rst = false ∧ i.cancel = true := by decide

/-- For each line a state whose step does not read it. -/
theorem witness_LinesAreReadOnlyWhereTheRulesReadThem :
    (phase .s1 0 0 .quiet).st ≠ .idle ∧
    ¬ (State.reset.st = .awaitNibble ∧ (State.reset.sub = .s1 ∨ State.reset.sub = .s6)) ∧
    ¬ ((phase .s1 0 0 .quiet).st = .awaitNibble ∧ (phase .s1 0 0 .quiet).sub = .s4) ∧
    (¬ ((phase .s4 0 0 .quiet).st = .idle ∨
      ((phase .s4 0 0 .quiet).st = .awaitNibble ∧ ((phase .s4 0 0 .quiet).sub = .s1 ∨ (phase .s4 0 0 .quiet).sub = .s6))) ∧
      (phase .s4 0 0 .quiet).cfg.deploy ≠ .relayReceiver) := by decide

/-- A run of three steps that writes the surface in its first. -/
theorem witness_SurfaceIsNeverRead : ∃ t, run 3 (before 0xABCD0002000301) = .next t := ⟨_, rfl⟩

/-- A run of three steps that drives `status` in its first. -/
theorem witness_StatusIsNeverRead : ∃ t, run 3 (phase .s3 6 0 .quiet) = .next t := ⟨_, rfl⟩

/-- A step that changes the packet buffer, by each of the three ways, the last at bytes 5 and 6; and a step that changes
`bi`, by each of the three ways, the last from byte 0 and from byte 5. -/
theorem witness_PacketBufferIsWrittenInOrder :
    (∀ s ∈ [phase .s6 3 1 { Inputs.quiet with rst := true },
        { State.reset with pkt := ⟨1, 0, 0, 0, 0, 0, 0⟩, inp := lines false true 1 },
        { phase .s6 5 1 (lines false false 0) with acc := 0xF8 }, { phase .s6 6 1 (lines false false 0) with acc := 0xF8 }],
      (stateAfter (step s)).map (fun t => decide (t.pkt ≠ s.pkt)) = some true) ∧
    (∀ s ∈ [phase .s6 3 1 { Inputs.quiet with rst := true }, { State.reset with bi := 6, inp := lines false true 1 },
        phase .s6 0 1 (lines false false 0), phase .s6 5 1 (lines false false 0)],
      (stateAfter (step s)).map (fun t => decide (t.bi ≠ s.bi)) = some true) := by decide

/-- A step that changes the surface, by each of the two ways. -/
theorem witness_OnlyCommandsWriteTheSurface :
    ∀ s ∈ [before 0xABCD0002000301, receiver (some ⟨1, 3, 0, 2, 0, 0xCD, 0xAB⟩) false],
      (stateAfter (step s)).map (fun t => decide (t.surf ≠ s.surf)) = some true := by decide

/-- A dispatch, and a step that is none. -/
theorem witness_PktOutGetsOnePacketPerDispatch :
    (∃ t, step (doneWith .relaySender ⟨2, 0, 0, 0, 0, 0, 0⟩) = .next t) ∧ (∃ t, step (phase .s1 0 0 .quiet) = .next t) ∧
    (doneWith .relaySender ⟨2, 0, 0, 0, 0, 0, 0⟩).inp.rst = false ∧ (phase .s1 0 0 .quiet).inp.rst = false :=
  ⟨⟨_, rfl⟩, ⟨_, rfl⟩, rfl, rfl⟩

/-- With a script, and without one. -/
theorem witness_ConfigurationIsConstant :
    (∃ t, step { State.reset with script := [lines false true 1] } = .next t) ∧
    (∃ t, step State.reset = .next t) ∧ State.reset.script = [] := ⟨⟨_, rfl⟩, ⟨_, rfl⟩, rfl⟩

/-- A configuration that meets the premises, and one that breaks P1. -/
theorem witness_StepsStopOnlyAtABadLaunch :
    LaunchOk State.reset.cfg ∧ ¬ LaunchOk { Config.reference with bpp := 3 } := by decide

theorem witness_InvariantAtReset : LaunchOk { Config.reference with mappedSize := 30, deploy := .relayReceiver } := by decide

/-- The first five nibbles of a transaction, bytes 0x01, 0x00 and the low half of 0x5A, as the history records them. -/
def fiveSamples : List Event :=
  [.reset, .txnStart, .sample 0 0 1, .sample 0 1 0, .sample 1 0 0, .sample 1 1 0, .sample 2 0 0xA]

/-- Nibble 1 of byte 2, before its sample. -/
def beforeSample (sub : Sub) : State :=
  { phase sub 2 1 .quiet with acc := 0x0A, status := 2, history := fiveSamples, surf := [(6, 0xE0), (7, 0x07)] }

/-- Nibble 1 of byte 2, in the middle of its ack pulse. -/
def inAckPulse : State :=
  { beforeSample .s5b with ack := true, acc := 0x5A, history := fiveSamples ++ [.sample 2 1 5, .ackRise] }

theorem beforeSample_inv : BlockInv (beforeSample .s3) :=
  { launch := by decide, bi_le := by decide, ack_iff := by decide, status_le := by decide, cnt_le := by decide,
    slots_done := fun _ => by decide
    slots_zero := fun _ k h1 h2 => by
      have h1 : 2 ≤ k := h1
      interval_cases k <;> rfl
    status_eq := fun _ h => by simp [beforeSample, phase] at h
    status_second := fun _ _ => rfl, nibble_count := fun _ => by decide, acc_low := fun _ _ => by decide
    acc_first := fun _ _ => ⟨[1, 0, 0, 0], 0xA, rfl, rfl⟩, acc_second := fun _ _ h => by cases h
    packet_done := nofun, receiver := nofun, surf_wf := by decide, surf_in := by decide }

theorem inAckPulse_inv : BlockInv inAckPulse :=
  { launch := by decide, bi_le := by decide, ack_iff := by decide, status_le := by decide, cnt_le := by decide,
    slots_done := fun _ => by decide
    slots_zero := fun _ k h1 h2 => by
      have h1 : 2 ≤ k := h1
      interval_cases k <;> rfl
    status_eq := fun _ _ => rfl, status_second := fun _ _ => rfl, nibble_count := fun _ => by decide
    acc_low := fun _ h => by simp [inAckPulse, beforeSample, phase] at h
    acc_first := fun _ h => by simp [inAckPulse, beforeSample, phase] at h
    acc_second := fun _ _ _ => ⟨[1, 0, 0, 0], 0xA, 5, rfl, by decide⟩
    packet_done := nofun, receiver := nofun, surf_wf := by decide, surf_in := by decide }

/-- A state in the middle of an ack pulse that meets the invariant, and its step. -/
theorem witness_InvariantKeptByEveryStep : BlockInv inAckPulse ∧ ∃ t, step inAckPulse = .next t := ⟨inAckPulse_inv, _, rfl⟩

/-- `S3` of byte 6, a step that changes `status`, and the `S3` of a nibble 1 that meets the invariant. -/
theorem witness_StatusIsDrivenAtS3Only :
    InSub (phase .s3 6 0 .quiet) .s3 ∧
    (∃ t, step (phase .s3 6 0 .quiet) = .next t ∧ t.status ≠ (phase .s3 6 0 .quiet).status) ∧
    BlockInv (beforeSample .s3) ∧ InSub (beforeSample .s3) .s3 ∧ (beforeSample .s3).ni = 1 :=
  ⟨by decide, ⟨_, rfl, by decide⟩, beforeSample_inv, by decide, rfl⟩

/-- The levels of one nibble with `T_SETTLE = 1`, `T_ACK = 0`, of a transmitter that waits one step before it raises the
clock and one before it lowers it. -/
def nibbleScript (n : Nibble) : List Inputs :=
  [lines false false 0] ++ List.replicate 6 (lines false true n) ++ List.replicate 2 (lines true false 0xF) ++
    [lines false true 0] ++ [lines false false 0]

/-- The reference configuration with another wiring. -/
def wired (d : Deploy) : Config := { Config.reference with deploy := d }

theorem nibbleScript_levels (d : Deploy) (n : Nibble) : NibbleLevels (wired d) n (nibbleScript n) :=
  ⟨[lines false false 0], List.replicate 6 (lines false true n), List.replicate 2 (lines true false 0xF), [lines false true 0],
    lines false false 0, rfl, by simp [nibbleScript, lines, Undisturbed, Inputs.quiet], by simp [lines], rfl,
    by simp [lines], rfl, by simp [lines], rfl⟩

theorem nibbleListScript_levels (d : Deploy) (l : List Nibble) : NibbleListLevels (wired d) l (l.flatMap nibbleScript) := by
  induction l with
  | nil => rfl
  | cons n rest ih => exact ⟨_, _, rfl, nibbleScript_levels d n, ih⟩

theorem witness_NibblePhaseTakesItsNibble :
    ∃ (s : State) (n : Nibble) (l rest : List Inputs), LaunchOk s.cfg ∧ s.cfg.deploy ≠ .relayReceiver ∧
      s.st = .awaitNibble ∧ s.sub = .s1 ∧ NibbleLevels s.cfg n l ∧ rest ≠ [] ∧ levels s = l ++ rest :=
  ⟨{ phase .s1 0 0 (lines false false 0) with script := (nibbleScript 5).tail ++ [Inputs.quiet] }, 5, nibbleScript 5,
    [Inputs.quiet], by decide, by decide, rfl, rfl, nibbleScript_levels .localDeploy 5, by decide, rfl⟩

/-- The levels of the transaction of packet `b`, with one poll of `Idle` before it. -/
def transactionScript (b : Packet) : List Inputs :=
  [Inputs.quiet] ++ [lines false true 1] ++ b.nibbles.flatMap nibbleScript ++ [Inputs.quiet]

theorem transactionScript_levels (d : Deploy) (b : Packet) : TransactionLevels (wired d) b (transactionScript b) :=
  ⟨[Inputs.quiet], b.nibbles.flatMap nibbleScript, lines false true 1, Inputs.quiet, rfl, by decide, by decide, rfl,
    nibbleListScript_levels d _, rfl⟩

/-- The transaction of `SetPixel 1, 2, 0xF800` (95_test_vectors.md L2.3), for each of the two wirings. -/
theorem witness_TransactionDeliversThePacketSent :
    ∀ d ∈ [Deploy.localDeploy, Deploy.relaySender], ∃ (s : State) (b : Packet) (l rest : List Inputs),
      LaunchOk s.cfg ∧ s.cfg.deploy ≠ .relayReceiver ∧ s.cfg.deploy = d ∧ s.st = .idle ∧ TransactionLevels s.cfg b l ∧
        rest ≠ [] ∧ levels s = l ++ rest := by
  intro d hd
  refine ⟨{ State.reset with
      cfg := wired d, script := (transactionScript ⟨1, 1, 0, 2, 0, 0, 0xF8⟩).tail ++ [Inputs.quiet] },
    ⟨1, 1, 0, 2, 0, 0, 0xF8⟩, transactionScript _, [Inputs.quiet], ?_, ?_, rfl, rfl, transactionScript_levels d _, by decide,
    rfl⟩
  · revert d; decide
  · revert d; decide

theorem witness_NibblePhaseTakesAtLeastItsSteps :
    let s := withLevels (nibbleScript 5) (phase .s1 0 0 .quiet)
    s.cfg.deploy ≠ .relayReceiver ∧ s.st = .awaitNibble ∧ s.sub = .s1 ∧ (∀ i ∈ levels s, i.rst = false) ∧
      8 < s.cfg.tSettle + s.cfg.tAck + 8 ∧ ∃ t, run 8 s = .next t := ⟨by decide, rfl, rfl, by decide, by decide, _, rfl⟩

end Sys2Proof.Tests
end

section
/-! PROOFS. The statements of spec/30_encoding.md: the number `P` of a packet and its slices (R80), and which fields of a
packet its command reads (R81). -/

/-! ### The number of a packet (R80) -/

namespace Sys2Proof

theorem Packet.number_toNat (p : Packet) : p.number.toNat = p.b0.toNat + 2 ^ 8 * p.b1.toNat + 2 ^ 16 * p.b2.toNat +
    2 ^ 24 * p.b3.toNat + 2 ^ 32 * p.b4.toNat + 2 ^ 40 * p.b5.toNat + 2 ^ 48 * p.b6.toNat := by
  unfold Packet.number
  simp only [append_toNat]
  omega

/-- Every byte of the packet can be read off its number. -/
theorem Packet.ofNumber_number (p : Packet) : Packet.ofNumber p.number = p := by
  obtain ⟨b0, b1, b2, b3, b4, b5, b6⟩ := p
  have := b0.isLt; have := b1.isLt; have := b2.isLt; have := b3.isLt; have := b4.isLt; have := b5.isLt; have := b6.isLt
  simp only [Packet.ofNumber, Packet.mk.injEq]
  refine ⟨?_, ?_, ?_, ?_, ?_, ?_, ?_⟩ <;>
  · apply BitVec.eq_of_toNat_eq
    simp only [BitVec.extractLsb'_toNat, Packet.number_toNat, Nat.shiftRight_eq_div_pow]
    omega

/-- Two neighbouring bytes of a number are its 16-bit slice at the lower one. -/
theorem u16le_extractLsb' {w : Nat} (n : BitVec w) (k : Nat) :
    u16le (n.extractLsb' k 8) (n.extractLsb' (k + 8) 8) = n.extractLsb' k 16 :=
  BitVec.extractLsb'_append_extractLsb'_eq_extractLsb' rfl

theorem Packet.ofNumber_xField (n : BitVec 56) : (Packet.ofNumber n).xField = n.extractLsb' 8 16 :=
  u16le_extractLsb' n 8

theorem Packet.ofNumber_yField (n : BitVec 56) : (Packet.ofNumber n).yField = n.extractLsb' 24 16 :=
  u16le_extractLsb' n 24

theorem Packet.ofNumber_colourField (n : BitVec 56) : (Packet.ofNumber n).colourField = n.extractLsb' 40 16 :=
  u16le_extractLsb' n 40

/-- Settles O7: the slices of a number are the fields of the packet it makes, and the number of a packet makes that packet. -/
theorem fieldsAreSlicesOfTheNumber : Obligations.FieldsAreSlicesOfTheNumber := by
  unfold Obligations.FieldsAreSlicesOfTheNumber
  intro p
  have hp : Packet.ofNumber p.number = p := p.ofNumber_number
  have htype : p.number.extractLsb' 0 8 = (Packet.ofNumber p.number).b0 := rfl
  rw [htype, ← Packet.ofNumber_xField, ← Packet.ofNumber_yField, ← Packet.ofNumber_colourField, hp]
  exact ⟨rfl, rfl, rfl, rfl, rfl⟩

end Sys2Proof

/-! ### What a packet's command reads (R81) -/

namespace Sys2Proof.Machine

/-! `exec`, one equation per command: no field called `ignored` or `reserved` stands on the right. -/

@[simp] theorem exec_fillBlank (g : BitVec 48) (s : State) : exec (.fillBlank g) s = fillWhole colourBlank s := rfl
@[simp] theorem exec_setPixel (x y c : Half) (s : State) : exec (.setPixel x y c) s = setPixel x y c s := rfl
@[simp] theorem exec_fillRed (g : BitVec 48) (s : State) : exec (.fillRed g) s = fillWhole colourRed s := rfl
@[simp] theorem exec_fillGreen (g : BitVec 48) (s : State) : exec (.fillGreen g) s = fillWhole colourGreen s := rfl
@[simp] theorem exec_fillBlue (g : BitVec 48) (s : State) : exec (.fillBlue g) s = fillWhole colourBlue s := rfl
@[simp] theorem exec_fillWhite (g : BitVec 48) (s : State) : exec (.fillWhite g) s = fillWhole colourWhite s := rfl
@[simp] theorem exec_fillColour (g : BitVec 32) (c : Half) (s : State) : exec (.fillColour g c) s = fillWhole c s := rfl
@[simp] theorem exec_resolution (g : BitVec 48) (s : State) : exec (.resolution g) s = .next s := rfl
@[simp] theorem exec_unknown08 (k : Byte) (g : BitVec 48) (s : State) : exec (.unknown08 k g) s = .next s := rfl
@[simp] theorem exec_unknown10 (k : Byte) (g : BitVec 48) (s : State) : exec (.unknown10 k g) s = .next s := rfl
@[simp] theorem exec_unknown20 (k : Byte) (g : BitVec 48) (s : State) : exec (.unknown20 k g) s = .next s := rfl
@[simp] theorem exec_unknown40 (k : Byte) (g : BitVec 48) (s : State) : exec (.unknown40 k g) s = .next s := rfl
@[simp] theorem exec_unknown80 (k : Byte) (g : BitVec 48) (s : State) : exec (.unknown80 k g) s = .next s := rfl

/-- R173 at the packet: whichever Unknown row a type byte of 8 or more falls in, the state stays. -/
theorem exec_decode_of_type_ge_eight {p : Packet} (h : 8 ≤ p.b0.toNat) (s : State) : exec (decode p) s = .next s := by
  rw [decode_type8 h]
  split_ifs <;> simp

/-- Settles O18, type byte by type byte: each case's equation for `exec` names only the fields the hypotheses equate. -/
theorem fieldsNotReadHaveNoEffect : Obligations.FieldsNotReadHaveNoEffect := by
  unfold Obligations.FieldsNotReadHaveNoEffect
  intro p q s htype hpixel hcolour
  rcases type_cases p.b0 with h | h | h | h | h | h | h | h | h <;> have hq := htype ▸ h
  · simp [decode_type0 h, decode_type0 hq]
  · obtain ⟨hx, hy, hc⟩ := hpixel h
    simp [decode_type1 h, decode_type1 hq, hx, hy, hc]
  · simp [decode_type2 h, decode_type2 hq]
  · simp [decode_type3 h, decode_type3 hq]
  · simp [decode_type4 h, decode_type4 hq]
  · simp [decode_type5 h, decode_type5 hq]
  · simp [decode_type6 h, decode_type6 hq, hcolour h]
  · simp [decode_type7 h, decode_type7 hq]
  · rw [exec_decode_of_type_ge_eight h, exec_decode_of_type_ge_eight hq]

end Sys2Proof.Machine
end

section
/-! PROOFS. The statements of spec/40_handshake_decoder.md, one per transition of the Protocol Decoder: the `Idle` poll
(R102) and the sub-phases `S1` to `S6` (R104 to R122). -/

namespace Sys2Proof.Machine

section
variable {s t u : State} {sub sub' : Sub}

/-! ### The transitions, one equation per case -/

theorem halt_eq (s : State) :
    halt s = { s with st := .halted, history := s.history ++ [.halt s.st s.sub s.bi s.ni] } := rfl

theorem pollIdle_of_cancel (h : s.inp.cancel = true) : pollIdle s = halt s := by simp [pollIdle, h]

theorem pollIdle_of_start (h : s.inp.cancel = false) (hs : s.inp.start = false) :
    pollIdle s = { s with
      st := .awaitNibble, bi := 0, ni := 0, sub := .s1, pkt := Packet.zero, acc := 0
      history := s.history ++ [.txnStart] } := by
  simp [pollIdle, h, hs, emit]

theorem pollIdle_of_no_start (h : s.inp.cancel = false) (hs : s.inp.start = true) : pollIdle s = s := by
  simp [pollIdle, h, hs]

theorem waitClockHigh_of_cancel (h : s.inp.cancel = true) : waitClockHigh s = halt s := by simp [waitClockHigh, h]

theorem waitClockHigh_of_high (h : s.inp.cancel = false) (hp : s.inp.pclk = true) :
    waitClockHigh s = { s with sub := .s2, cnt := s.cfg.tSettle } := by
  simp [waitClockHigh, h, hp]

theorem waitClockHigh_of_low (h : s.inp.cancel = false) (hp : s.inp.pclk = false) : waitClockHigh s = s := by
  simp [waitClockHigh, h, hp]

theorem settle_of_zero (h : s.cnt = 0) : settle s = { s with sub := .s3 } := if_pos h

theorem settle_of_pos (h : s.cnt ≠ 0) : settle s = { s with cnt := s.cnt - 1 } := if_neg h

theorem ackHold_of_zero (h : s.cnt = 0) : ackHold s = { s with sub := .s5c } := if_pos h

theorem ackHold_of_pos (h : s.cnt ≠ 0) : ackHold s = { s with cnt := s.cnt - 1 } := if_neg h

theorem waitClockLow_of_cancel (h : s.inp.cancel = true) : waitClockLow s = halt s := by simp [waitClockLow, h]

theorem waitClockLow_of_high (h : s.inp.cancel = false) (hp : s.inp.pclk = true) : waitClockLow s = s := by
  simp [waitClockLow, h, hp]

theorem waitClockLow_of_low (h : s.inp.cancel = false) (hp : s.inp.pclk = false) : waitClockLow s = advance s := by
  simp [waitClockLow, h, hp]

theorem advance_of_first (h : s.ni = 0) : advance s = { s with ni := 1, sub := .s1 } := if_pos h

theorem advance_of_second (h : s.ni = 1) (hb : s.bi.toNat < 6) :
    advance s = { s with pkt := s.pkt.setByte s.bi s.acc, bi := s.bi + 1, ni := 0, sub := .s1 } := by
  have hlt : s.bi < 6#3 := hb
  simp [advance, h, hlt]

theorem advance_of_last (h : s.ni = 1) (hb : s.bi.toNat = 6) :
    advance s = { s with pkt := { s.pkt with b6 := s.acc }, st := .done } := by
  have hbi : s.bi = 6#3 := BitVec.eq_of_toNat_eq hb
  simp [advance, h, hbi, Packet.setByte]

/-! ### What the transitions leave of `ack`, `status` and `sub` -/

@[simp] theorem pollIdle_ack : (pollIdle s).ack = s.ack := by unfold pollIdle; split_ifs <;> rfl
@[simp] theorem pollIdle_status : (pollIdle s).status = s.status := by unfold pollIdle; split_ifs <;> rfl

@[simp] theorem waitClockHigh_ack : (waitClockHigh s).ack = s.ack := by unfold waitClockHigh; split_ifs <;> rfl
@[simp] theorem waitClockHigh_status : (waitClockHigh s).status = s.status := by unfold waitClockHigh; split_ifs <;> rfl

@[simp] theorem settle_ack : (settle s).ack = s.ack := by unfold settle; split_ifs <;> rfl
@[simp] theorem settle_status : (settle s).status = s.status := by unfold settle; split_ifs <;> rfl

@[simp] theorem driveStatus_ack : (driveStatus s).ack = s.ack := rfl

@[simp] theorem sampleNibble_ack : (sampleNibble s).ack = s.ack := rfl
@[simp] theorem sampleNibble_status : (sampleNibble s).status = s.status := rfl

@[simp] theorem ackHigh_status : (ackHigh s).status = s.status := rfl

@[simp] theorem ackHold_ack : (ackHold s).ack = s.ack := by unfold ackHold; split_ifs <;> rfl
@[simp] theorem ackHold_status : (ackHold s).status = s.status := by unfold ackHold; split_ifs <;> rfl

@[simp] theorem ackLow_ack : (ackLow s).ack = false := rfl
@[simp] theorem ackLow_status : (ackLow s).status = s.status := rfl

@[simp] theorem advance_ack : (advance s).ack = s.ack := by unfold advance; split_ifs <;> rfl
@[simp] theorem advance_status : (advance s).status = s.status := by unfold advance; split_ifs <;> rfl

@[simp] theorem waitClockLow_ack : (waitClockLow s).ack = s.ack := by unfold waitClockLow; split_ifs <;> simp
@[simp] theorem waitClockLow_status : (waitClockLow s).status = s.status := by unfold waitClockLow; split_ifs <;> simp

/-- After the `Idle` poll a nibble phase can only be at its first sub-phase. -/
theorem pollIdle_sub (h : s.st = .idle) : (pollIdle s).st = .awaitNibble → (pollIdle s).sub = .s1 := by
  unfold pollIdle
  split_ifs <;> simp [h]

theorem waitClockHigh_sub (s : State) : (waitClockHigh s).sub = s.sub ∨ (waitClockHigh s).sub = .s2 := by
  unfold waitClockHigh
  split_ifs <;> simp

theorem settle_sub (s : State) : (settle s).sub = s.sub ∨ (settle s).sub = .s3 := by
  unfold settle
  split_ifs <;> simp

theorem ackHold_sub (s : State) : (ackHold s).sub = s.sub ∨ (ackHold s).sub = .s5c := by
  unfold ackHold
  split_ifs <;> simp

theorem advance_sub (s : State) : (advance s).sub = s.sub ∨ (advance s).sub = .s1 := by
  unfold advance
  split_ifs <;> simp

theorem waitClockLow_sub (s : State) : (waitClockLow s).sub = s.sub ∨ (waitClockLow s).sub = .s1 := by
  unfold waitClockLow
  split_ifs
  · simp
  · exact advance_sub s
  · simp

/-! ### A step of a nibble phase, by sub-phase -/

/-- Only `S3` writes `status` (R110). -/
theorem nibbleStep_status (h : s.sub ≠ .s3) : (nibbleStep s).status = s.status := by
  cases hs : s.sub with
  | s3 => exact absurd hs h
  | _ => simp [nibbleStep, hs]

/-- Only `S5a` raises `ack` (R114). -/
theorem nibbleStep_ack (h : s.sub ≠ .s5a) (ha : s.ack = false) : (nibbleStep s).ack = false := by
  cases hs : s.sub with
  | s5a => exact absurd hs h
  | _ => simp [nibbleStep, hs, ha]

/-- Only the sample of `S4` is followed by `S5a` (R112). -/
theorem sub_eq_s4_of_nibbleStep_sub (h : (nibbleStep s).sub = .s5a) (hne : s.sub ≠ .s5a) : s.sub = .s4 := by
  cases hs : s.sub with
  | s1 => rcases waitClockHigh_sub s with e | e <;> simp [nibbleStep, hs, e] at h
  | s2 => rcases settle_sub s with e | e <;> simp [nibbleStep, hs, e] at h
  | s3 => simp [nibbleStep, hs, driveStatus] at h
  | s4 => rfl
  | s5a => exact absurd hs hne
  | s5b => rcases ackHold_sub s with e | e <;> simp [nibbleStep, hs, e] at h
  | s5c => simp [nibbleStep, hs, ackLow] at h
  | s6 => rcases waitClockLow_sub s with e | e <;> simp [nibbleStep, hs, e] at h

/-! ### The step of the machine at each transition -/

theorem InSub.awaiting (h : InSub s sub) : s.st = .awaitNibble := h.2.1

theorem InSub.sub_eq (h : InSub s sub) : s.sub = sub := h.2.2

theorem step_of_idle (h : LinesLive s) (hst : s.st = .idle) : step s = .next (nextLevels (pollIdle s)) := by
  obtain ⟨hlaunch, hrst, hdeploy⟩ := h
  exact step_of_rxStep hlaunch (by simp [rxStep, lineStep, hrst, hdeploy, hst])

theorem step_of_inSub (h : InSub s sub) : step s = .next (nextLevels (nibbleStep s)) := by
  obtain ⟨⟨hlaunch, hrst, hdeploy⟩, hst, -⟩ := h
  exact step_of_rxStep hlaunch (by simp [rxStep, lineStep, hrst, hdeploy, hst])

theorem step_of_s1 (h : InSub s .s1) : step s = .next (nextLevels (waitClockHigh s)) := by
  simp [step_of_inSub h, nibbleStep, h.sub_eq]

theorem step_of_s2 (h : InSub s .s2) : step s = .next (nextLevels (settle s)) := by
  simp [step_of_inSub h, nibbleStep, h.sub_eq]

theorem step_of_s3 (h : InSub s .s3) : step s = .next (nextLevels (driveStatus s)) := by
  simp [step_of_inSub h, nibbleStep, h.sub_eq]

theorem step_of_s4 (h : InSub s .s4) : step s = .next (nextLevels (sampleNibble s)) := by
  simp [step_of_inSub h, nibbleStep, h.sub_eq]

theorem step_of_s5a (h : InSub s .s5a) : step s = .next (nextLevels (ackHigh s)) := by
  simp [step_of_inSub h, nibbleStep, h.sub_eq]

theorem step_of_s5b (h : InSub s .s5b) : step s = .next (nextLevels (ackHold s)) := by
  simp [step_of_inSub h, nibbleStep, h.sub_eq]

theorem step_of_s5c (h : InSub s .s5c) : step s = .next (nextLevels (ackLow s)) := by
  simp [step_of_inSub h, nibbleStep, h.sub_eq]

theorem step_of_s6 (h : InSub s .s6) : step s = .next (nextLevels (waitClockLow s)) := by
  simp [step_of_inSub h, nibbleStep, h.sub_eq]

/-! ### What a step outside a nibble phase can do to the decoder -/

/-- A command has no access to the block's registers: it changes the surface, the history and the fill counter only. -/
theorem exec_frame {i : Instr} (h : exec i s = .next t) :
    t = { s with surf := t.surf, history := t.history, fills := t.fills } := by
  rcases exec_cases h with ⟨c, hfill⟩ | ⟨x, y, c, -, hpixel⟩ | rfl
  · rw [fillWhole_eq_next.1 hfill]
  · rcases setPixel_eq_next.1 hpixel with ⟨-, -, rfl⟩ | ⟨-, rfl⟩ <;> rfl
  · rfl

/-- The decoder's outputs are as before, and `t` is in a nibble phase only at `S1` or where `s` was in it. -/
def DecoderHeld (s t : State) : Prop :=
  t.ack = s.ack ∧ t.status = s.status ∧
    (t.st = .awaitNibble → t.sub = .s1 ∨ s.st = .awaitNibble ∧ t.sub = s.sub)

theorem DecoderHeld.refl (s : State) : DecoderHeld s s := ⟨rfl, rfl, fun h => .inr ⟨h, rfl⟩⟩

theorem decoderHeld_pollIdle (h : s.st = .idle) : DecoderHeld s (pollIdle s) :=
  ⟨pollIdle_ack, pollIdle_status, fun hst => .inl (pollIdle_sub h hst)⟩

theorem decoderHeld_of_dispatchPacket (h : dispatchPacket s = .next t) : DecoderHeld s t := by
  rcases dispatchPacket_cases h with ⟨-, u, hu, rfl⟩ | ⟨-, rfl⟩
  · rw [exec_frame hu]
    exact ⟨rfl, rfl, nofun⟩
  · exact ⟨rfl, rfl, nofun⟩

theorem decoderHeld_of_pktInStep (h : pktInStep s = .next t) : DecoderHeld s t := by
  rcases pktInStep_cases h with ⟨-, rfl⟩ | ⟨b, -, -, rfl⟩ | ⟨b, -, -, hexec⟩
  · exact .refl _
  · exact ⟨rfl, rfl, nofun⟩
  · rw [exec_frame hexec]
    exact ⟨rfl, rfl, fun hst => .inr ⟨hst, rfl⟩⟩

/-- A step is a reset, a step of a nibble phase, or one that holds the decoder. -/
theorem step_decoder_cases (h : step s = .next t) :
    s.inp.rst = true ∧ t = nextLevels (applyRst s) ∨
    LinesLive s ∧ s.st = .awaitNibble ∧ t = nextLevels (nibbleStep s) ∨
    DecoderHeld s t := by
  obtain ⟨hlaunch, u, hu, rfl⟩ := step_eq_next.1 h
  have held (hd : DecoderHeld s u) : DecoderHeld s (nextLevels u) := by simpa [DecoderHeld] using hd
  rcases rxStep_cases hu with ⟨hrst, rfl⟩ | ⟨-, -, rfl⟩ | ⟨-, -, -, hpkt⟩ | ⟨-, -, hidle, rfl⟩ |
    ⟨hrst, hdeploy, hst, rfl⟩ | ⟨-, -, -, hdone⟩
  · exact .inl ⟨hrst, rfl⟩
  · exact .inr (.inr (held (.refl _)))
  · exact .inr (.inr (held (decoderHeld_of_pktInStep hpkt)))
  · exact .inr (.inr (held (decoderHeld_pollIdle hidle)))
  · exact .inr (.inl ⟨⟨hlaunch, hrst, hdeploy⟩, hst, rfl⟩)
  · exact .inr (.inr (held (decoderHeld_of_dispatchPacket hdone)))

/-! ### The waits of `S2` and `S5b` -/

/-- In sub-phase `sub`, with `rst` low at every level to come. -/
structure InSubWithoutRst (s : State) (sub : Sub) : Prop where
  inSub : InSub s sub
  rst_low : ∀ i ∈ levels s, i.rst = false

theorem levels_nextLevels_subset (s : State) : levels (nextLevels s) ⊆ levels s := by
  cases hs : s.script with
  | nil => simp [nextLevels_nil s hs]
  | cons i rest => simp [nextLevels_cons s i rest hs, levels, hs]

/-- Without `rst`, a step of `RX` to sub-phase `sub'` leads to a state in that sub-phase, again without `rst`. -/
theorem inSubWithoutRst_nextLevels (h : InSubWithoutRst s sub) (hcfg : u.cfg = s.cfg) (hlevels : levels u = levels s)
    (hst : u.st = .awaitNibble) (hsub : u.sub = sub') : InSubWithoutRst (nextLevels u) sub' := by
  obtain ⟨⟨⟨hlaunch, -, hdeploy⟩, -, -⟩, hrst⟩ := h
  have hrst' : ∀ i ∈ levels (nextLevels u), i.rst = false :=
    fun i hi => hrst i (hlevels ▸ levels_nextLevels_subset u hi)
  have hnow : (nextLevels u).inp.rst = false := hrst' _ List.mem_cons_self
  have hlive : LinesLive (nextLevels u) := ⟨by simpa [hcfg] using hlaunch, hnow, by simpa [hcfg] using hdeploy⟩
  exact ⟨⟨hlive, by simpa using hst, by simpa using hsub⟩, hrst'⟩

/-- The two waits count down in the same way (R106, R116). -/
theorem step_of_countdown (hw : sub = .s2 ∨ sub = .s5b) (h : InSub s sub) (hc : s.cnt ≠ 0) :
    step s = .next (nextLevels { s with cnt := s.cnt - 1 }) := by
  rcases hw with rfl | rfl
  · rw [step_of_s2 h, settle_of_pos hc]
  · rw [step_of_s5b h, ackHold_of_pos hc]

/-- While the counter lasts, the block stays in the wait, whatever the lines read. -/
theorem run_countdown (hw : sub = .s2 ∨ sub = .s5b) {k : Nat} (h : InSubWithoutRst s sub) (hk : k ≤ s.cnt) :
    ∃ t, run k s = .next t ∧ InSubWithoutRst t sub ∧ t.cnt = s.cnt - k ∧ t.ack = s.ack := by
  induction k generalizing s with
  | zero => exact ⟨s, rfl, h, rfl, rfl⟩
  | succ k ih =>
    have hstep := step_of_countdown hw h.inSub (by omega)
    have hnext : InSubWithoutRst (nextLevels { s with cnt := s.cnt - 1 }) sub := 
      inSubWithoutRst_nextLevels h rfl rfl h.inSub.awaiting h.inSub.sub_eq
    obtain ⟨t, hrun, hin, hcnt, hack⟩ := ih hnext (by simp; omega)
    exact ⟨t, (run_succ_of_step hstep).trans hrun, hin, by simp at hcnt; omega, by simpa using hack⟩

/-- At the end of its count a wait is still in its sub-phase, with the counter at 0. -/
theorem run_countdown_to_zero (hw : sub = .s2 ∨ sub = .s5b) {n : Nat} (h : InSubWithoutRst s sub) (hn : s.cnt = n) :
    ∃ t, run n s = .next t ∧ InSubWithoutRst t sub ∧ t.cnt = 0 ∧ t.ack = s.ack := by
  obtain ⟨t, hrun, hin, hcnt, hack⟩ := run_countdown hw h hn.ge
  exact ⟨t, hrun, hin, by omega, hack⟩

/-- One more step at the end of a run. -/
theorem run_succ_of_run {n : Nat} (h : run n s = .next t) (hstep : step t = .next u) : run (n + 1) s = .next u := by
  rw [run_add, h, onNext_next, run_succ_of_step hstep, run_zero]

/-! ### The sample -/

theorem accumulate_first (acc : Byte) (d : Nibble) : accumulate acc 0 d = d.zeroExtend 8 := rfl

theorem accumulate_second (acc : Byte) (d : Nibble) : accumulate acc 1 d = acc ||| (d.zeroExtend 8 <<< 4) := rfl

/-- R84, R112: the two samples of a byte, whatever the accumulator held before them. -/
theorem accumulate_both (acc : Byte) (n0 n1 : Nibble) :
    accumulate (accumulate acc 0 n0) 1 n1 = joinNibbles n0 n1 := by
  rw [accumulate_first, accumulate_second, joinNibbles, BitVec.append_def, BitVec.or_comm, BitVec.shiftLeftZeroExtend_eq,
    BitVec.setWidth'_eq]

end

/-! ### The statements, settled -/

/-- Settles O26: a count of `T_SETTLE` in `S2`, and the step that finds it used up. -/
theorem settleLastsItsInterval : Obligations.SettleLastsItsInterval := by
  unfold Obligations.SettleLastsItsInterval
  have hlast {s : State} (h : InSub s .s2) (hc : s.cnt = 0) : step s = .next (nextLevels { s with sub := .s3 }) := by
    rw [step_of_s2 h, settle_of_zero hc]
  refine ⟨fun s h => ⟨hlast h, step_of_countdown (.inl rfl) h⟩, fun s h hcnt hrst => ⟨fun k hk => ?_, ?_⟩⟩
  · obtain ⟨t, hrun, hin, -, -⟩ := run_countdown (.inl rfl) ⟨h, hrst⟩ (hcnt ▸ hk)
    exact ⟨t, hrun, hin.inSub⟩
  · obtain ⟨t, hrun, hin, hzero, -⟩ := run_countdown_to_zero (.inl rfl) ⟨h, hrst⟩ hcnt
    have hin' : InSubWithoutRst (nextLevels { t with sub := .s3 }) .s3 :=
      inSubWithoutRst_nextLevels hin rfl rfl hin.inSub.awaiting rfl
    exact ⟨_, run_succ_of_run hrun (hlast hin.inSub hzero), hin'.inSub⟩

/-- Settles O27: of the steps that are no reset only those of a nibble phase can touch `status`, and of these only
`S3`; that nibble 1 rewrites the value is a clause of the invariant. -/
theorem statusIsDrivenAtS3Only : Obligations.StatusIsDrivenAtS3Only := by
  unfold Obligations.StatusIsDrivenAtS3Only
  refine ⟨fun s h => step_of_s3 h, fun s t hstep hne => ?_, fun s hinv h hni => ?_⟩
  · rcases step_decoder_cases hstep with ⟨hrst, -⟩ | ⟨hlive, hst, rfl⟩ | ⟨-, hstatus, -⟩
    · exact .inl hrst
    · rw [nextLevels_status] at hne
      exact .inr ⟨hlive, hst, not_imp_comm.1 nibbleStep_status hne⟩
    · exact absurd hstatus hne
  · have hstatus : s.status = s.bi := hinv.status_second h.awaiting hni
    exact ⟨_, step_of_s3 h, by simp [driveStatus, hstatus]⟩

/-- Settles O29: of the steps only those of a nibble phase can raise `ack` or enter `S5a`; of these the first is `S5a`
and the second the sample of `S4`. -/
theorem ackRisesAfterTheSample : Obligations.AckRisesAfterTheSample := by
  unfold Obligations.AckRisesAfterTheSample
  refine ⟨fun s h => step_of_s5a h, fun s t hstep hlow hhigh => ?_, ?_⟩
  · rcases step_decoder_cases hstep with ⟨-, rfl⟩ | ⟨hlive, hst, rfl⟩ | ⟨hack, -, -⟩
    · simp at hhigh
    · refine ⟨hlive, hst, by_contra fun hsub => ?_⟩
      simp [nibbleStep_ack hsub hlow] at hhigh
    · simp [hack, hlow] at hhigh
  · rintro s t hstep ⟨htst, htsub⟩ hnot
    rcases step_decoder_cases hstep with ⟨-, rfl⟩ | ⟨hlive, hst, rfl⟩ | ⟨-, -, hheld⟩
    · simp at htst
    · rw [nextLevels_sub] at htsub
      have hs4 : s.sub = .s4 := sub_eq_s4_of_nibbleStep_sub htsub fun hsub => hnot ⟨hst, hsub⟩
      exact ⟨⟨hlive, hst, hs4⟩, by simp [nibbleStep, hs4, sampleNibble]⟩
    · rcases hheld htst with hs1 | ⟨hst, hsub⟩
      · simp [hs1] at htsub
      · exact absurd ⟨hst, hsub ▸ htsub⟩ hnot

/-- Settles O30: a count of `T_ACK` in `S5b`, the step that finds it used up, and the step of `S5c`. -/
theorem ackIsHeldItsInterval : Obligations.AckIsHeldItsInterval := by
  unfold Obligations.AckIsHeldItsInterval
  have hlast {s : State} (h : InSub s .s5b) (hc : s.cnt = 0) : step s = .next (nextLevels { s with sub := .s5c }) := by
    rw [step_of_s5b h, ackHold_of_zero hc]
  refine ⟨fun s h => ⟨hlast h, step_of_countdown (.inr rfl) h⟩, fun s h hack hcnt hrst => ⟨fun k hk => ?_, ?_⟩⟩
  · obtain ⟨t, hrun, hin, -, hsame⟩ := run_countdown (.inr rfl) ⟨h, hrst⟩ (hcnt ▸ hk)
    exact ⟨t, hrun, hin.inSub, hsame.trans hack⟩
  · obtain ⟨t, hrun, hin, hzero, hsame⟩ := run_countdown_to_zero (.inr rfl) ⟨h, hrst⟩ hcnt
    have hrun' := run_succ_of_run hrun (hlast hin.inSub hzero)
    have hin' : InSubWithoutRst (nextLevels { t with sub := .s5c }) .s5c :=
      inSubWithoutRst_nextLevels hin rfl rfl hin.inSub.awaiting rfl
    have hin'' : InSubWithoutRst (nextLevels (ackLow (nextLevels { t with sub := .s5c }))) .s6 :=
      inSubWithoutRst_nextLevels hin' rfl rfl hin'.inSub.awaiting rfl
    exact ⟨⟨_, hrun', hin'.inSub, by simp [hsame, hack]⟩,
      ⟨_, run_succ_of_run hrun' (step_of_s5c hin'.inSub), hin''.inSub, by simp⟩⟩

/-- Settles O24, branch by branch of the poll. -/
theorem idlePollStartsHaltsOrStays : Obligations.IdlePollStartsHaltsOrStays := by
  unfold Obligations.IdlePollStartsHaltsOrStays
  intro s h hst
  rw [step_of_idle h hst]
  refine ⟨fun hc => ?_, fun hc hs => ?_, fun hc hs => ?_⟩
  · rw [pollIdle_of_cancel hc, halt_eq]
  · rw [pollIdle_of_start hc hs]
  · rw [pollIdle_of_no_start hc hs]

/-- Settles O25, branch by branch of `S1`. -/
theorem clockHighWait : Obligations.ClockHighWait := by
  unfold Obligations.ClockHighWait
  intro s h
  rw [step_of_s1 h]
  refine ⟨fun hc => ?_, fun hc hp => ?_, fun hc hp => ?_⟩
  · rw [waitClockHigh_of_cancel hc, halt_eq]
  · rw [waitClockHigh_of_high hc hp]
  · rw [waitClockHigh_of_low hc hp]

/-- Settles O28: the step of `S4`, and the accumulator after both nibbles. -/
theorem sampleFillsTheAccumulator : Obligations.SampleFillsTheAccumulator := by
  unfold Obligations.SampleFillsTheAccumulator
  exact ⟨fun s h => step_of_s4 h, accumulate_both 0⟩

/-- Settles O31: the step of `S5c`. -/
theorem ackFallsBeforeTheClockLowWait : Obligations.AckFallsBeforeTheClockLowWait := by
  unfold Obligations.AckFallsBeforeTheClockLowWait
  exact fun s h => step_of_s5c h

/-- Settles O32, branch by branch of `S6` and of the advance that ends it. -/
theorem clockLowWaitAdvances : Obligations.ClockLowWaitAdvances := by
  unfold Obligations.ClockLowWaitAdvances
  intro s h
  rw [step_of_s6 h]
  refine ⟨fun hc => ?_, fun hc hp => ?_, fun hc hp => ?_⟩
  · rw [waitClockLow_of_cancel hc, halt_eq]
  · rw [waitClockLow_of_high hc hp]
  · rw [waitClockLow_of_low hc hp]
    refine ⟨fun hn => ?_, fun hn hb => ?_, fun hn hb => ?_⟩
    · rw [advance_of_first hn]
    · rw [advance_of_second hn hb]
    · rw [advance_of_last hn hb]

end Sys2Proof.Machine
end

section
/-! PROOFS. The statement of spec/41_packet_assembler.md: the dispatch of a complete packet in `Done` (R144). -/

/-! ### The decoder's range (R86) -/

namespace Sys2Proof

/-- Each branch of the decoder that answers an Unknown row is taken only at a type byte of that row. -/
theorem decode_wellFormed (p : Packet) : (decode p).WellFormed := by
  rcases type_cases p.b0 with h | h | h | h | h | h | h | h | h
  · rw [decode_type0 h]; rfl
  · rw [decode_type1 h]; rfl
  · rw [decode_type2 h]; rfl
  · rw [decode_type3 h]; rfl
  · rw [decode_type4 h]; rfl
  · rw [decode_type5 h]; rfl
  · rw [decode_type6 h]; rfl
  · rw [decode_type7 h]; rfl
  · rw [decode_type8 h]
    split_ifs <;> simp [Instr.WellFormed, Instr.wellFormed] <;> omega

end Sys2Proof

namespace Sys2Proof.Machine

section
variable {s : State}

/-! ### Every command completes (R174, R196) -/

/-- Under the launch premises a pixel in bounds is inside the mapping, so its write is never refused (R61, R162). -/
theorem setPixel_completes (h : LaunchOk s.cfg) (x y c : Half) : ∃ t, setPixel x y c s = .next t := by
  by_cases hb : InBounds s.cfg x y
  · obtain ⟨hinside, -⟩ := pixelOffset_inside h hb
    exact ⟨_, setPixel_eq_next.2 (.inl ⟨hb, hinside, rfl⟩)⟩
  · exact ⟨s, setPixel_eq_next.2 (.inr ⟨hb, rfl⟩)⟩

theorem exec_completes (h : LaunchOk s.cfg) (i : Instr) : ∃ t, exec i s = .next t := by
  cases i with
  | setPixel x y c => exact setPixel_completes h x y c
  | fillBlank _ | fillRed _ | fillGreen _ | fillBlue _ | fillWhite _ | fillColour _ _ => exact ⟨_, rfl⟩
  | resolution _ => exact ⟨s, rfl⟩
  | unknown08 _ _ | unknown10 _ _ | unknown20 _ _ | unknown40 _ _ | unknown80 _ _ => exact ⟨s, rfl⟩

/-! ### The dispatch, one equation per wiring (R144, R180) -/

theorem dispatchPacket_of_local (h : s.cfg.deploy = .localDeploy) :
    dispatchPacket s = onNext (exec (decode s.pkt) { s with history := s.history ++ [.packet s.pkt] })
      (fun t => .next { t with st := .idle }) := by
  simp only [dispatchPacket, if_pos h]
  rfl

theorem dispatchPacket_of_not_local (h : s.cfg.deploy ≠ .localDeploy) :
    dispatchPacket s = .next { s with st := .idle, history := s.history ++ [.packet s.pkt] } := by
  simp only [dispatchPacket, if_neg h]
  rfl

/-- Whatever the wiring, the dispatch is over in one step, and the sequencer is back in `Idle` (R68, R144). -/
theorem dispatchPacket_completes (h : LaunchOk s.cfg) : ∃ t, dispatchPacket s = .next t ∧ t.st = .idle := by
  by_cases hd : s.cfg.deploy = .localDeploy
  · obtain ⟨u, hu⟩ := exec_completes (s := { s with history := s.history ++ [.packet s.pkt] }) h (decode s.pkt)
    exact ⟨{ u with st := .idle }, by rw [dispatchPacket_of_local hd, hu, onNext_next], rfl⟩
  · exact ⟨_, dispatchPacket_of_not_local hd, rfl⟩

/-- In `Done` the step is the dispatch, then the environment's next levels. -/
theorem step_of_done (h : LinesLive s) (hst : s.st = .done) :
    step s = onNext (dispatchPacket s) fun t => .next (nextLevels t) := by
  obtain ⟨hlaunch, hrst, hdeploy⟩ := h
  have hrx : rxStep s = dispatchPacket s := by simp [rxStep, lineStep, hrst, hdeploy, hst]
  simp only [step, machineStep, if_pos hlaunch, hrx]

end

/-! ### The statement, settled -/

/-- Settles O33: the step in `Done` is the dispatch, and the dispatch completes because every command does. -/
theorem doneRunsTheDecodedCommand : Obligations.DoneRunsTheDecodedCommand := by
  unfold Obligations.DoneRunsTheDecodedCommand
  intro s hlaunch hrst hst
  have hstep (hd : s.cfg.deploy ≠ .relayReceiver) := step_of_done ⟨hlaunch, hrst, hd⟩ hst
  refine ⟨decode_wellFormed s.pkt, fun hlocal => ?_, fun hsender => ?_, fun hd => ?_⟩
  · rw [hstep (by simp [hlocal]), dispatchPacket_of_local hlocal, onNext_assoc]
    rfl
  · rw [hstep (by simp [hsender]), dispatchPacket_of_not_local (by simp [hsender]), onNext_next]
  · obtain ⟨t, ht, hidle⟩ := dispatchPacket_completes hlaunch
    exact ⟨nextLevels t, by rw [hstep hd, ht, onNext_next], by simpa using hidle⟩

end Sys2Proof.Machine
end

section
/-! PROOFS. The statement of spec/42_command_interpreter.md: `interpret` as the case table over byte 0 (R151). -/

/-! ### `interpret`, one equation per type (R151) -/

namespace Sys2Proof

section
variable {b : Packet}

theorem interpret_type0 (h : b.b0.toNat = 0) : interpret b = .fillBlank := by
  simp [interpret, h]

theorem interpret_type1 (h : b.b0.toNat = 1) : interpret b = .setPixel b.xField b.yField b.colourField := by
  simp [interpret, h, Packet.xField, Packet.yField, Packet.colourField]

theorem interpret_type2 (h : b.b0.toNat = 2) : interpret b = .fillRed := by
  simp [interpret, h]

theorem interpret_type3 (h : b.b0.toNat = 3) : interpret b = .fillGreen := by
  simp [interpret, h]

theorem interpret_type4 (h : b.b0.toNat = 4) : interpret b = .fillBlue := by
  simp [interpret, h]

theorem interpret_type5 (h : b.b0.toNat = 5) : interpret b = .fillWhite := by
  simp [interpret, h]

theorem interpret_type6 (h : b.b0.toNat = 6) : interpret b = .fillColour b.colourField := by
  simp [interpret, h, Packet.colourField]

theorem interpret_type7 (h : b.b0.toNat = 7) : interpret b = .resolution := by
  simp [interpret, h]

/-- A type byte of 8 or more is `n + 8`, which none of the eight literal cases matches. -/
theorem interpret_type8 (h : 8 ≤ b.b0.toNat) : interpret b = .unknown := by
  obtain ⟨n, hn⟩ := Nat.exists_eq_add_of_le' h
  simp [interpret, hn]

end

end Sys2Proof

/-! ### The statement, settled -/

namespace Sys2Proof.Machine

/-- Settles O5, type by type: `interpret`'s equation names the fields, and `u16le_toNat` gives them as numbers. -/
theorem interpretFollowsTheCodeMap : Obligations.InterpretFollowsTheCodeMap := by
  unfold Obligations.InterpretFollowsTheCodeMap
  intro b
  have hx : b.xField.toNat = b.b1.toNat + 256 * b.b2.toNat := u16le_toNat b.b1 b.b2
  have hy : b.yField.toNat = b.b3.toNat + 256 * b.b4.toNat := u16le_toNat b.b3 b.b4
  have hc : b.colourField.toNat = b.b5.toNat + 256 * b.b6.toNat := u16le_toNat b.b5 b.b6
  exact ⟨interpret_type0, fun h => ⟨_, _, _, interpret_type1 h, hx, hy, hc⟩, interpret_type2, interpret_type3,
    interpret_type4, interpret_type5, fun h => ⟨_, interpret_type6 h, hc⟩, interpret_type7, interpret_type8⟩

end Sys2Proof.Machine
end

section
/-! PROOFS. The statements of spec/43_frame_renderer.md: what the fills (R160, R165, R167 to R171), `setPixel` (R162, R166)
and the commands without an effect (R172, R173) leave. -/

namespace Sys2Proof.Machine

section
variable {s t u : State} {x y c : Half}

/-! ### What a fill leaves (R160) -/

/-- Each slot holds the colour, low byte first (R59). -/
theorem fillWhole_read_slot (h : fillWhole c s = .next t) {k : Nat} (hk : k < nslots s.cfg) :
    t.surf.read (2 * k) = some (lowByte c) ∧ t.surf.read (2 * k + 1) = some (highByte c) := by
  have hlow : 2 * k / 2 = k ∧ 2 * k % 2 = 0 := by omega
  have hhigh : (2 * k + 1) / 2 = k ∧ (2 * k + 1) % 2 = 1 := by omega
  simp [fillWhole_read h, hlow, hhigh, hk]

theorem fillWhole_read_outside (h : fillWhole c s = .next t) {a : Nat} (ha : 2 * nslots s.cfg ≤ a) :
    t.surf.read a = s.surf.read a := by
  rw [fillWhole_read h, if_neg (by omega)]

theorem fillWhole_cfg (h : fillWhole c s = .next t) : t.cfg = s.cfg := by rw [fillWhole_eq_next.1 h]

/-- Neither the surface before a fill nor the number of fills shows in the slots, so a second fill finds them as it
would leave them. -/
theorem fillWhole_twice_read (h : fillWhole c s = .next t) (h' : fillWhole c t = .next u) (a : Nat) :
    u.surf.read a = t.surf.read a := by
  rw [fillWhole_read h', fillWhole_cfg h, fillWhole_read h]
  split_ifs <;> rfl

/-- The six fill commands differ in their colour only: whatever `exec` runs as `fillWhole` has the whole effect. -/
theorem fillsWholeMapping_of_exec {i : Instr} (h : ∀ s, exec i s = fillWhole c s) : FillsWholeMapping i c := by
  intro s
  obtain ⟨t, ht⟩ : ∃ t, fillWhole c s = .next t := ⟨_, rfl⟩
  have hleft := fillWhole_eq_next.1 ht
  exact ⟨t, (h s).trans ht, fun _ => fillWhole_read_slot ht, fun _ => fillWhole_read_outside ht,
    ⟨slotOrder s.fills (nslots s.cfg), slotOrder_perm _ _, by rw [hleft]⟩, by rw [hleft],
    fun u hu => fillWhole_twice_read ht ((h t).symm.trans hu)⟩

/-! ### What `setPixel` leaves (R162) -/

theorem setPixel_in_bounds (hc : LaunchOk s.cfg) (hb : InBounds s.cfg x y) :
    setPixel x y c s = .next { s with
      surf := s.surf.write16 (pixelOffset s.cfg x y) c
      history := s.history ++ [.surfWrite (pixelOffset s.cfg x y) c] } :=
  setPixel_eq_next.2 (.inl ⟨hb, (pixelOffset_inside hc hb).1, rfl⟩)

theorem setPixel_out_of_bounds (hb : ¬ InBounds s.cfg x y) : setPixel x y c s = .next s :=
  setPixel_eq_next.2 (.inr ⟨hb, rfl⟩)

theorem Memory.read_write16_low (m : Memory) (off : Nat) (v : Half) :
    (m.write16 off v).read off = some (lowByte v) := by
  simp [Memory.read_write16]

theorem Memory.read_write16_high (m : Memory) (off : Nat) (v : Half) :
    (m.write16 off v).read (off + 1) = some (highByte v) := by
  simp [Memory.read_write16]

theorem Memory.read_write16_other (m : Memory) (v : Half) {off a : Nat} (hlow : a ≠ off) (hhigh : a ≠ off + 1) :
    (m.write16 off v).read a = m.read a := by
  rw [Memory.read_write16, if_neg hhigh, if_neg hlow]

/-! ### A packet of an Unknown type (R173) -/

theorem decode_command_of_type_ge_eight {p : Packet} (h : 8 ≤ p.b0.toNat) : (decode p).command = .unknown := by
  rw [decode_type8 h]
  split_ifs <;> rfl

/-- Its dispatch only shows the packet, in every wiring: running an Unknown command is the same as running none. -/
theorem dispatchPacket_of_type_ge_eight (h : 8 ≤ s.pkt.b0.toNat) :
    dispatchPacket s = .next { s with st := .idle, history := s.history ++ [.packet s.pkt] } := by
  by_cases hd : s.cfg.deploy = .localDeploy
  · rw [dispatchPacket_of_local hd, exec_decode_of_type_ge_eight h, onNext_next]
  · exact dispatchPacket_of_not_local hd

end

/-! ### The statements, settled -/

/-- Settles O11: each fixed fill is `fillWhole` of its constant, and the decoder's equation at its type byte names it. -/
theorem fixedFillsSetEverySlot : Obligations.FixedFillsSetEverySlot := by
  unfold Obligations.FixedFillsSetEverySlot
  exact ⟨fun g => fillsWholeMapping_of_exec (exec_fillBlank g), fun g => fillsWholeMapping_of_exec (exec_fillRed g),
    fun g => fillsWholeMapping_of_exec (exec_fillGreen g), fun g => fillsWholeMapping_of_exec (exec_fillBlue g),
    fun g => fillsWholeMapping_of_exec (exec_fillWhite g),
    fun _ => ⟨fun h => ⟨_, decode_type0 h⟩, fun h => ⟨_, decode_type2 h⟩, fun h => ⟨_, decode_type3 h⟩,
      fun h => ⟨_, decode_type4 h⟩, fun h => ⟨_, decode_type5 h⟩⟩⟩

/-- Settles O12: FillColour is `fillWhole` of the packet's colour, and at a fixed colour both sides are the same
`fillWhole`. -/
theorem fillColourSetsEverySlot : Obligations.FillColourSetsEverySlot := by
  unfold Obligations.FillColourSetsEverySlot
  exact ⟨fun g c => fillsWholeMapping_of_exec (exec_fillColour g c),
    fun p h => ⟨_, _, decode_type6 h, u16le_toNat p.b5 p.b6⟩, fun _ _ _ => ⟨rfl, rfl, rfl, rfl, rfl⟩⟩

/-- Settles O13 by the bounds check: in bounds `setPixel` is one 16-bit write at the pixel's offset, whose bytes the laws
of `write16` give; out of bounds it answers its state. -/
theorem setPixelWritesItsPixelOrNothing : Obligations.SetPixelWritesItsPixelOrNothing := by
  unfold Obligations.SetPixelWritesItsPixelOrNothing
  refine ⟨fun x y c s hc => ?_, fun p h => ⟨_, _, _, decode_type1 h, u16le_toNat p.b1 p.b2, u16le_toNat p.b3 p.b4,
    u16le_toNat p.b5 p.b6⟩⟩
  by_cases hb : InBounds s.cfg x y
  · obtain ⟨-, heven⟩ := pixelOffset_inside hc hb
    refine ⟨_, setPixel_in_bounds hc hb, fun _ => ⟨heven, ?_, ?_, fun a hlow hhigh => ?_, rfl, rfl⟩,
      fun hout => absurd hb hout⟩
    · exact Memory.read_write16_low s.surf (pixelOffset s.cfg x y) c
    · exact Memory.read_write16_high s.surf (pixelOffset s.cfg x y) c
    · exact Memory.read_write16_other s.surf c hlow hhigh
  · exact ⟨s, setPixel_out_of_bounds hb, fun hin => absurd hin hb, fun _ => rfl⟩

/-- Settles O14: the equation of `exec` for Resolution, and the decoder's at type 7. -/
theorem resolutionHasNoEffect : Obligations.ResolutionHasNoEffect := by
  unfold Obligations.ResolutionHasNoEffect
  exact ⟨exec_resolution, fun _ h => ⟨_, decode_type7 h⟩⟩

/-- Settles O15: the step in `Done` is the dispatch, which leaves the surface at an Unknown type, and the environment's
move touches neither `st` nor the surface. -/
theorem unknownHasNoEffect : Obligations.UnknownHasNoEffect := by
  unfold Obligations.UnknownHasNoEffect
  refine ⟨fun k g s => ⟨exec_unknown08 k g s, exec_unknown10 k g s, exec_unknown20 k g s, exec_unknown40 k g s,
    exec_unknown80 k g s⟩, fun _ => decode_command_of_type_ge_eight, fun s hlive hst htype => ?_⟩
  have hstep := step_of_done hlive hst
  rw [dispatchPacket_of_type_ge_eight htype, onNext_next] at hstep
  exact ⟨_, hstep, by simp, by simp⟩

end Sys2Proof.Machine
end

section
/-! PROOFS. Reset (70_reset_and_hazards.md section 1): `rst` is tested before `st`, the wiring and every other level, so
one equation of the step covers every state and every input. -/

namespace Sys2Proof.Machine

/-- R194 a: a high `rst` decides the step before `Halted`, the wiring and the lines are looked at. -/
theorem rxStep_of_rst {s : State} (h : s.inp.rst = true) : rxStep s = .next (applyRst s) := if_pos h

theorem step_of_rst {s : State} (hlaunch : LaunchOk s.cfg) (h : s.inp.rst = true) :
    step s = .next (nextLevels (applyRst s)) := step_of_rxStep hlaunch (rxStep_of_rst h)

/-- Settles O36: the step with `rst` high is `applyRst` and then the environment's move; the obligation writes out the
record `applyRst` answers. -/
theorem resetWinsOverEverything : Obligations.ResetWinsOverEverything := by
  unfold Obligations.ResetWinsOverEverything
  exact fun s hlaunch hrst => step_of_rst hlaunch hrst

end Sys2Proof.Machine
end

section
/-! PROOFS. The codes of spec/30_encoding.md and spec/42_command_interpreter.md: decoder and encoder are inverse to each
other (R80 to R82), one row of the opcode table for each type byte (R86), the decoder beside `interpret` (R151), nibbles
(R83, R84), the length of a packet (R92) and the lines of R93. -/

namespace Sys2Proof

/-! ### The fields of a packet that an instruction makes (R82) -/

theorem append_bytes1to4_bytes1to6 (p : Packet) : p.colourField ++ p.bytes1to4 = p.bytes1to6 := by
  apply BitVec.eq_of_toNat_eq
  have hc : p.colourField.toNat = p.b5.toNat + 256 * p.b6.toNat := u16le_toNat p.b5 p.b6
  rw [append_toNat, bytes1to6_toNat, bytes1to4_toNat, hc]
  omega

/-- Bytes 5 and 6 hold the upper 16 of the 48 bits after the type byte. -/
theorem ofType_colourField (k : Byte) (c : Half) (g : BitVec 32) : (Packet.ofType k (c ++ g)).colourField = c := by
  have := g.isLt
  apply BitVec.eq_of_toNat_eq
  rw [Packet.colourField, u16le_toNat]
  simp only [Packet.ofType, BitVec.extractLsb'_toNat, append_toNat, Nat.shiftRight_eq_div_pow]
  omega

/-- Bytes 1 to 4 hold the lower 32 of them. -/
theorem ofType_bytes1to4 (k : Byte) (c : Half) (g : BitVec 32) : (Packet.ofType k (c ++ g)).bytes1to4 = g := by
  have := g.isLt
  apply BitVec.eq_of_toNat_eq
  rw [bytes1to4_toNat]
  simp only [Packet.ofType, BitVec.extractLsb'_toNat, append_toNat, Nat.shiftRight_eq_div_pow]
  omega

/-! ### Decoder and encoder -/

/-- The decoder's split of the Unknown range, at a packet written as its type byte and the 48 bits after it. -/
theorem decode_ofType8 {k : Byte} {g : BitVec 48} (h : 8 ≤ k.toNat) :
    decode (.ofType k g) =
      if k.toNat ≤ 0x0F then .unknown08 k g
      else if k.toNat ≤ 0x1F then .unknown10 k g
      else if k.toNat ≤ 0x3F then .unknown20 k g
      else if k.toNat ≤ 0x7F then .unknown40 k g
      else .unknown80 k g := by
  have hdecode := decode_type8 (p := .ofType k g) h
  rwa [ofType_bytes1to6] at hdecode

/-- Settles O2, row by row: the type byte selects the decoder's branch of the row, and the fields read back from the
packet are the instruction's. An Unknown row is selected because well-formedness puts its type byte in its range. -/
theorem decodeUndoesEncode : Obligations.DecodeUndoesEncode := by
  unfold Obligations.DecodeUndoesEncode
  intro i hwf
  cases i with
  | fillBlank g => rw [encode, decode_type0 rfl, ofType_bytes1to6]
  | setPixel x y c =>
    rw [encode, decode_type1 rfl, Packet.xField, Packet.yField, Packet.colourField, u16le_low_high, u16le_low_high,
      u16le_low_high]
  | fillRed g => rw [encode, decode_type2 rfl, ofType_bytes1to6]
  | fillGreen g => rw [encode, decode_type3 rfl, ofType_bytes1to6]
  | fillBlue g => rw [encode, decode_type4 rfl, ofType_bytes1to6]
  | fillWhite g => rw [encode, decode_type5 rfl, ofType_bytes1to6]
  | fillColour g c => rw [encode, decode_type6 rfl, ofType_bytes1to4, ofType_colourField]
  | resolution g => rw [encode, decode_type7 rfl, ofType_bytes1to6]
  | unknown08 k g =>
    obtain ⟨hlo, hhi⟩ := of_decide_eq_true hwf
    rw [encode, decode_ofType8 hlo, if_pos hhi]
  | unknown10 k g =>
    obtain ⟨hlo, hhi⟩ := of_decide_eq_true hwf
    rw [encode, decode_ofType8 (by omega), if_neg (by omega), if_pos hhi]
  | unknown20 k g =>
    obtain ⟨hlo, hhi⟩ := of_decide_eq_true hwf
    rw [encode, decode_ofType8 (by omega), if_neg (by omega), if_neg (by omega), if_pos hhi]
  | unknown40 k g =>
    obtain ⟨hlo, hhi⟩ := of_decide_eq_true hwf
    rw [encode, decode_ofType8 (by omega), if_neg (by omega), if_neg (by omega), if_neg (by omega), if_pos hhi]
  | unknown80 k g =>
    have hlo := of_decide_eq_true hwf
    rw [encode, decode_ofType8 (by omega), if_neg (by omega), if_neg (by omega), if_neg (by omega), if_neg (by omega)]

/-- Settles O3, type byte by type byte: what the decoder reads from the packet is what the encoder puts back. -/
theorem encodeUndoesDecode : Obligations.EncodeUndoesDecode := by
  unfold Obligations.EncodeUndoesDecode
  refine fun p => ⟨decode_wellFormed p, ?_⟩
  have hback := ofType_of_bytes1to6 p
  rcases type_cases p.b0 with h | h | h | h | h | h | h | h | h
  · rw [decode_type0 h, encode, ← h, hback]
  · rw [decode_type1 h, encode, ← h]
    simp [Packet.xField, Packet.yField, Packet.colourField]
  · rw [decode_type2 h, encode, ← h, hback]
  · rw [decode_type3 h, encode, ← h, hback]
  · rw [decode_type4 h, encode, ← h, hback]
  · rw [decode_type5 h, encode, ← h, hback]
  · rw [decode_type6 h, encode, append_bytes1to4_bytes1to6, ← h, hback]
  · rw [decode_type7 h, encode, ← h, hback]
  · rw [decode_type8 h]
    split_ifs <;> exact hback

/-- Settles O1: eleven fixed words, evaluated. -/
theorem specWordsDecode : Obligations.SpecWordsDecode := by
  unfold Obligations.SpecWordsDecode
  decide

/-! ### The opcode table (R86) -/

/-- Each of the 256 type bytes fits one row's mask and match. -/
theorem opcodeTable_filter_length (c : Byte) : (opcodeTable.filter fun r => r.matchesType c).length = 1 := by
  revert c
  decide

/-- The table row of every instruction's own mnemonic fits its packet. -/
theorem tableRow_statement (i : Instr) : Laws.TableRow.Statement i := by
  cases i with
  | fillBlank g => exact Laws.TableRow.fillBlank g
  | setPixel x y c => exact Laws.TableRow.setPixel x y c
  | fillRed g => exact Laws.TableRow.fillRed g
  | fillGreen g => exact Laws.TableRow.fillGreen g
  | fillBlue g => exact Laws.TableRow.fillBlue g
  | fillWhite g => exact Laws.TableRow.fillWhite g
  | fillColour g c => exact Laws.TableRow.fillColour g c
  | resolution g => exact Laws.TableRow.resolution g
  | unknown08 k g => exact Laws.TableRow.unknown08 k g
  | unknown10 k g => exact Laws.TableRow.unknown10 k g
  | unknown20 k g => exact Laws.TableRow.unknown20 k g
  | unknown40 k g => exact Laws.TableRow.unknown40 k g
  | unknown80 k g => exact Laws.TableRow.unknown80 k g

/-- Settles O4: the row of the decoded instruction fits the type byte, because the instruction's packet is the packet
decoded; and only one row does. -/
theorem exactlyOneTableRowMatches : Obligations.ExactlyOneTableRowMatches := by
  unfold Obligations.ExactlyOneTableRowMatches
  intro p
  obtain ⟨hwf, hback⟩ := encodeUndoesDecode p
  obtain ⟨row, hmem, hname, hfits⟩ := tableRow_statement (decode p) hwf
  rw [hback] at hfits
  obtain ⟨only, honly⟩ := List.length_eq_one_iff.1 (opcodeTable_filter_length p.b0)
  have hrow : row ∈ opcodeTable.filter fun r => r.matchesType p.b0 := List.mem_filter.2 ⟨hmem, hfits⟩
  rw [honly, List.mem_singleton] at hrow
  rw [honly, List.map_singleton, ← hrow, hname]

/-! ### The decoder beside `interpret` (R151) -/

/-- Settles O6, type byte by type byte: the two equations name the same command. -/
theorem decoderAgreesWithInterpret : Obligations.DecoderAgreesWithInterpret := by
  unfold Obligations.DecoderAgreesWithInterpret
  intro p
  have hnat {k : Byte} (h : p.b0 = k) : p.b0.toNat = k.toNat := congrArg BitVec.toNat h
  rcases type_cases p.b0 with h | h | h | h | h | h | h | h | h
  · rw [decode_type0 h, interpret_type0 (hnat h), Instr.command]
  · rw [decode_type1 h, interpret_type1 (hnat h), Instr.command]
  · rw [decode_type2 h, interpret_type2 (hnat h), Instr.command]
  · rw [decode_type3 h, interpret_type3 (hnat h), Instr.command]
  · rw [decode_type4 h, interpret_type4 (hnat h), Instr.command]
  · rw [decode_type5 h, interpret_type5 (hnat h), Instr.command]
  · rw [decode_type6 h, interpret_type6 (hnat h), Instr.command]
  · rw [decode_type7 h, interpret_type7 (hnat h), Instr.command]
  · rw [Machine.decode_command_of_type_ge_eight h, interpret_type8 h]

/-- Settles O10, line by line: the assembled packet's type byte is the line's, and its fields read back as the
operands. -/
theorem notationAssemblesItsCommand : Obligations.NotationAssemblesItsCommand := by
  unfold Obligations.NotationAssemblesItsCommand
  refine ⟨interpret_type0 rfl, fun x y c => ?_, interpret_type2 rfl, interpret_type3 rfl, interpret_type4 rfl,
    interpret_type5 rfl, fun c => ?_, interpret_type7 rfl, fun _ => rfl⟩
  · rw [interpret_type1 rfl]
    simp [PacketLine.assemble, Packet.xField, Packet.yField, Packet.colourField]
  · rw [interpret_type6 rfl]
    simp [PacketLine.assemble, Packet.colourField]

/-! ### Nibbles (R83, R84) -/

theorem joinNibbles_toNat (n0 n1 : Nibble) : (joinNibbles n0 n1).toNat = n0.toNat + 16 * n1.toNat := append_toNat n1 n0

@[simp] theorem lowNibble_joinNibbles (n0 n1 : Nibble) : lowNibble (joinNibbles n0 n1) = n0 := by
  have := n0.isLt
  apply BitVec.eq_of_toNat_eq
  simp only [lowNibble, BitVec.extractLsb'_toNat, joinNibbles_toNat, Nat.shiftRight_eq_div_pow]
  omega

@[simp] theorem highNibble_joinNibbles (n0 n1 : Nibble) : highNibble (joinNibbles n0 n1) = n1 := by
  have := n0.isLt
  have := n1.isLt
  apply BitVec.eq_of_toNat_eq
  simp only [highNibble, BitVec.extractLsb'_toNat, joinNibbles_toNat, Nat.shiftRight_eq_div_pow]
  omega

@[simp] theorem joinNibbles_low_high (b : Byte) : joinNibbles (lowNibble b) (highNibble b) = b := by
  have := b.isLt
  apply BitVec.eq_of_toNat_eq
  rw [joinNibbles_toNat]
  simp only [lowNibble, highNibble, BitVec.extractLsb'_toNat, Nat.shiftRight_eq_div_pow]
  omega

/-- Any list of bytes, cut into nibbles low one first, joins to itself. -/
theorem joinNibbleList_flatMap (l : List Byte) :
    joinNibbleList (l.flatMap fun b => [lowNibble b, highNibble b]) = l := by
  induction l with
  | nil => rfl
  | cons b rest ih =>
    rw [List.flatMap_cons, List.cons_append, List.cons_append, List.nil_append, joinNibbleList, ih,
      joinNibbles_low_high]

/-- Settles O8. -/
theorem nibblesRejoinToTheirBytes : Obligations.NibblesRejoinToTheirBytes := by
  unfold Obligations.NibblesRejoinToTheirBytes
  exact ⟨fun n0 n1 => ⟨joinNibbles_toNat n0 n1, lowNibble_joinNibbles n0 n1, highNibble_joinNibbles n0 n1⟩,
    fun p => ⟨rfl, joinNibbleList_flatMap p.bytes⟩⟩

/-! ### The length of a packet (R92) -/

theorem packetOfBytes_of_length_ne {l : List Byte} (h : l.length ≠ 7) :
    packetOfBytes l = .error (.notSevenBytes l.length) := by
  unfold packetOfBytes
  split
  · simp at h
  · rfl

theorem packetOfBytes_of_length_eq {l : List Byte} (h : l.length = 7) : ∃ p, packetOfBytes l = .ok p := by
  match l, h with
  | [b0, b1, b2, b3, b4, b5, b6], _ => exact ⟨⟨b0, b1, b2, b3, b4, b5, b6⟩, rfl⟩

/-- Settles O9: seven bytes are a packet, which always decodes; any other list is rejected before the decoder. -/
theorem onlySevenBytesDecode : Obligations.OnlySevenBytesDecode := by
  unfold Obligations.OnlySevenBytesDecode
  intro l
  have hreject (h : l.length ≠ 7) : decodeBytes l = .error (.notSevenBytes l.length) := by
    rw [decodeBytes, packetOfBytes_of_length_ne h]
    rfl
  refine ⟨⟨fun h => ?_, fun ⟨i, hi⟩ => by_contra fun h => ?_⟩, hreject⟩
  · obtain ⟨p, hp⟩ := packetOfBytes_of_length_eq h
    exact ⟨decode p, by rw [decodeBytes, hp]; rfl⟩
  · rw [hreject h] at hi
    cases hi

end Sys2Proof
end

section
/-! PROOFS. The surface and the commands as a whole (20_memory.md, 43_frame_renderer.md): the write primitive (R55), the
mapping from commands to operations (R164), the frame of every command, its completion (R174), its idempotency, and the
free order of a fill (R69, D18). -/

namespace Sys2Proof.Machine

section
variable {s t u : State} {i : Instr} {x y c : Half}

/-! ### One operation for each command (R164) -/

/-- Which operation a command runs does not depend on the state it runs in. -/
theorem exec_operation (i : Instr) :
    (∃ c, ∀ s, exec i s = fillWhole c s) ∨ (∃ x y c, ∀ s, exec i s = setPixel x y c s) ∨ ∀ s, exec i s = .next s := by
  cases i with
  | setPixel x y c => exact .inr (.inl ⟨x, y, c, exec_setPixel x y c⟩)
  | fillBlank g => exact .inl ⟨_, exec_fillBlank g⟩
  | fillRed g => exact .inl ⟨_, exec_fillRed g⟩
  | fillGreen g => exact .inl ⟨_, exec_fillGreen g⟩
  | fillBlue g => exact .inl ⟨_, exec_fillBlue g⟩
  | fillWhite g => exact .inl ⟨_, exec_fillWhite g⟩
  | fillColour g c => exact .inl ⟨c, exec_fillColour g c⟩
  | resolution g => exact .inr (.inr (exec_resolution g))
  | unknown08 k g => exact .inr (.inr (exec_unknown08 k g))
  | unknown10 k g => exact .inr (.inr (exec_unknown10 k g))
  | unknown20 k g => exact .inr (.inr (exec_unknown20 k g))
  | unknown40 k g => exact .inr (.inr (exec_unknown40 k g))
  | unknown80 k g => exact .inr (.inr (exec_unknown80 k g))

theorem exec_eq_execute (i : Instr) (s : State) : exec i s = execute i.command s := by
  cases i <;> rfl

/-! ### What a command does to the surface -/

/-- A slot of a fill lies inside the mapping (R160). -/
theorem slot_inside {k : Config} {n : Nat} (h : n < nslots k) : 2 * n + 1 < k.mappedSize := by
  unfold nslots at h
  omega

theorem writeSlots_induction {P : Memory → Prop}
    (hP : ∀ m off v, P m → off + 1 < s.cfg.mappedSize → P (m.write16 off v))
    {slots : List Nat} (hslots : ∀ n ∈ slots, n < nslots s.cfg) {m : Memory} (hm : P m) :
    P (m.writeSlots slots c) := by
  induction slots generalizing m with
  | nil => exact hm
  | cons n rest ih =>
    obtain ⟨hn, hrest⟩ := List.forall_mem_cons.1 hslots
    exact ih hrest (hP m (2 * n) c hm (slot_inside hn))

/-- A command changes the surface by 16-bit writes inside the mapping only: it keeps whatever those writes keep. -/
theorem exec_surf_induction {P : Memory → Prop}
    (hP : ∀ m off v, P m → off + 1 < s.cfg.mappedSize → P (m.write16 off v)) (h : exec i s = .next t) (hs : P s.surf) :
    P t.surf := by
  rcases exec_cases h with ⟨c, hfill⟩ | ⟨x, y, c, -, hpixel⟩ | rfl
  · rw [fillWhole_eq_next.1 hfill]
    exact writeSlots_induction hP (fun n hn => List.mem_range.1 hn) hs
  · rcases setPixel_eq_next.1 hpixel with ⟨-, hinside, rfl⟩ | ⟨-, rfl⟩
    · exact hP _ _ _ hs hinside
    · exact hs
  · exact hs

theorem exec_surf_wf (h : exec i s = .next t) (hs : s.surf.wf = true) : t.surf.wf = true :=
  exec_surf_induction (P := fun m => m.wf = true) (fun m off v hm _ => m.wf_write16 off v hm) h hs

theorem Memory.inside_write {m : Memory} {n a : Nat} (v : Byte) (hm : ∀ e ∈ m, e.1 < n) (ha : a < n) :
    ∀ e ∈ m.write a v, e.1 < n := by
  intro e he
  rcases (m.mem_keys_write a v e.1).1 (List.mem_map_of_mem he) with hk | hk
  · omega
  · obtain ⟨e', he', hk'⟩ := List.mem_map.1 hk
    exact hk' ▸ hm e' he'

/-- No command writes a byte outside the mapping (R50). -/
theorem exec_surf_inside (h : exec i s = .next t) (hs : ∀ e ∈ s.surf, e.1 < s.cfg.mappedSize) :
    ∀ e ∈ t.surf, e.1 < s.cfg.mappedSize :=
  exec_surf_induction (P := fun m => ∀ e ∈ m, e.1 < s.cfg.mappedSize)
    (fun _ _ v hm hoff => Memory.inside_write (highByte v) (Memory.inside_write (lowByte v) hm (by omega)) hoff) h hs

/-- What a command adds to the history: surface writes inside the mapping, at even offsets under the launch premises
(R61, R160, R162). -/
theorem exec_history (h : exec i s = .next t) :
    ∃ es, t.history = s.history ++ es ∧
      ∀ e ∈ es, ∃ off v, e = .surfWrite off v ∧ off + 1 < s.cfg.mappedSize ∧ (LaunchOk s.cfg → off % 2 = 0) := by
  rcases exec_cases h with ⟨c, hfill⟩ | ⟨x, y, c, -, hpixel⟩ | rfl
  · rw [fillWhole_eq_next.1 hfill]
    refine ⟨_, rfl, fun e he => ?_⟩
    obtain ⟨n, hn, rfl⟩ := List.mem_map.1 he
    exact ⟨2 * n, c, rfl, slot_inside ((mem_slotOrder _ _ _).1 hn), fun _ => by omega⟩
  · rcases setPixel_eq_next.1 hpixel with ⟨hb, hinside, rfl⟩ | ⟨-, rfl⟩
    · have heven (hlaunch : LaunchOk s.cfg) := (pixelOffset_inside hlaunch hb).2
      exact ⟨_, rfl, fun e he => ⟨_, c, List.mem_singleton.1 he, hinside, heven⟩⟩
    · exact ⟨[], by simp, by simp⟩
  · exact ⟨[], by simp, by simp⟩

theorem exec_cfg (h : exec i s = .next t) : t.cfg = s.cfg := by rw [exec_frame h]

/-! ### Canonical surfaces are equal when they read the same -/

/-- The order of the slots of a fill does not show in the surface. -/
theorem Memory.writeSlots_perm {m : Memory} (hm : m.wf = true) {l l' : List Nat} (h : l.Perm l') (v : Half) :
    m.writeSlots l v = m.writeSlots l' v := by
  refine Memory.ext_read _ _ (m.wf_writeSlots l v hm) (m.wf_writeSlots l' v hm) fun a => ?_
  simp only [Memory.read_writeSlots, h.mem_iff]

theorem Memory.write16_twice {m : Memory} (hm : m.wf = true) (off : Nat) (v : Half) :
    (m.write16 off v).write16 off v = m.write16 off v := by
  have hwf := m.wf_write16 off v hm
  refine Memory.ext_read _ _ (Memory.wf_write16 _ _ _ hwf) hwf fun a => ?_
  simp only [Memory.read_write16]
  split_ifs <;> rfl

theorem setPixel_twice_surf (hs : s.surf.wf = true) (h : setPixel x y c s = .next t) (h' : setPixel x y c t = .next u) :
    u.surf = t.surf := by
  rcases setPixel_eq_next.1 h with ⟨hb, -, rfl⟩ | ⟨hb, rfl⟩
  · rcases setPixel_eq_next.1 h' with ⟨-, -, rfl⟩ | ⟨hb', -⟩
    · exact Memory.write16_twice hs _ _
    · exact absurd hb hb'
  · rw [setPixel_out_of_bounds hb] at h'
    cases h'
    rfl

/-! ### The writes of a fill, one by one (R160) -/

/-- Slot writes inside the mapping are never refused, and leave the surface and the events in their order. -/
theorem surfWriteSlots_eq {slots : List Nat} (h : ∀ n ∈ slots, n < nslots s.cfg) :
    surfWriteSlots c slots s = .next { s with
      surf := s.surf.writeSlots slots c, history := s.history ++ slots.map fun n => .surfWrite (2 * n) c } := by
  induction slots generalizing s with
  | nil => simp [surfWriteSlots, Memory.writeSlots]
  | cons n rest ih =>
    obtain ⟨hn, hrest⟩ := List.forall_mem_cons.1 h
    rw [surfWriteSlots, surfWrite16_inside (slot_inside hn), onNext_next, ih (by exact hrest)]
    simp [Memory.writeSlots]

end

/-! ### The statements, settled -/

/-- Settles O16. -/
theorem execFollowsTheCommandMapping : Obligations.ExecFollowsTheCommandMapping := by
  unfold Obligations.ExecFollowsTheCommandMapping
  exact ⟨exec_eq_execute, fun _ => ⟨rfl, rfl, rfl, rfl, rfl, fun _ => rfl, fun _ _ _ => rfl, rfl, rfl⟩⟩

/-- Settles O17: the frame of a command, and the events it adds. -/
theorem commandsChangeOnlyTheSurface : Obligations.CommandsChangeOnlyTheSurface := by
  unfold Obligations.CommandsChangeOnlyTheSurface
  exact fun i s t h => ⟨exec_frame h, exec_history h⟩

/-- Settles O19: both applications run the same operation. After a fill every byte reads the same again; a pixel written
twice is the same write twice. -/
theorem commandsAreIdempotent : Obligations.CommandsAreIdempotent := by
  unfold Obligations.CommandsAreIdempotent
  intro i s t u hs ht hu
  have htwf := exec_surf_wf ht hs
  have huwf := exec_surf_wf hu htwf
  rcases exec_operation i with ⟨c, hop⟩ | ⟨x, y, c, hop⟩ | hop <;> rw [hop] at ht hu
  · exact Memory.ext_read _ _ huwf htwf (fillWhole_twice_read ht hu)
  · exact setPixel_twice_surf hs ht hu
  · cases hu
    rfl

/-- Settles O20: slot by slot the writes leave `writeSlots` of their order, and on a canonical surface that is the same
for every order of the slots, the fill's own among them. -/
theorem fillOrderDoesNotMatter : Obligations.FillOrderDoesNotMatter := by
  unfold Obligations.FillOrderDoesNotMatter
  have hslots {s : State} {order : List Nat} (h : order.Perm (List.range (nslots s.cfg))) :
      ∀ n ∈ order, n < nslots s.cfg := fun n hn => List.mem_range.1 (h.mem_iff.1 hn)
  refine ⟨fun order c s hs hperm => ⟨_, surfWriteSlots_eq (hslots hperm), rfl, fun g t ht => ?_⟩, fun g c s hs => ?_⟩
  · rw [exec_fillColour] at ht
    rw [fillWhole_eq_next.1 ht]
    exact Memory.writeSlots_perm hs hperm c
  · have hperm := slotOrder_perm s.fills (nslots s.cfg)
    refine ⟨_, _, hperm, surfWriteSlots_eq (hslots hperm), ?_⟩
    rw [exec_fillColour, fillWhole_eq_next, Memory.writeSlots_perm hs hperm]

/-- Settles O21: the two bytes that an in-bounds SetPixel writes are those of the visible pixel `(x, y)`. -/
theorem setPixelReachesOnlyVisiblePixels : Obligations.SetPixelReachesOnlyVisiblePixels := by
  unfold Obligations.SetPixelReachesOnlyVisiblePixels
  intro x y c s t a h hinvisible
  rw [exec_setPixel] at h
  rcases setPixel_eq_next.1 h with ⟨⟨hx, hy⟩, -, rfl⟩ | ⟨-, rfl⟩
  · obtain ⟨hlow, hhigh⟩ := hinvisible x.toNat y.toNat hx hy
    exact Memory.read_write16_other s.surf c hlow hhigh
  · rfl

/-- Settles O22. -/
theorem everyCommandCompletes : Obligations.EveryCommandCompletes := by
  unfold Obligations.EveryCommandCompletes
  exact fun i s hlaunch => exec_completes hlaunch i

/-- Settles O23: inside the mapping the two byte writes, outside it the refusal. -/
theorem surfWriteStoresLowByteFirst : Obligations.SurfWriteStoresLowByteFirst := by
  unfold Obligations.SurfWriteStoresLowByteFirst
  intro off v s
  refine ⟨fun hinside => ⟨_, surfWrite16_inside hinside, ?_, ?_, fun a hlow hhigh => ?_, rfl, rfl⟩,
    fun hout => if_neg hout⟩
  · exact Memory.read_write16_low s.surf off v
  · exact Memory.read_write16_high s.surf off v
  · exact Memory.read_write16_other s.surf v hlow hhigh

end Sys2Proof.Machine
end

section
/-! PROOFS. The moves of the block as relations with a name for each case, tied to `rxStep` and `nibbleStep`, and what
each move keeps. The proofs about single steps go by these cases. -/

namespace Sys2Proof.Machine

/-! ### The moves of `RX` -/

/-- `BlockMove s t`: one step of `RX` leads from `s` to `t`. One constructor per rule. -/
inductive BlockMove (s : State) : State → Prop where
  /-- R220. -/
  | reset (hrst : s.inp.rst = true) : BlockMove s (applyRst s)
  /-- No step (R126, R181, log 8). -/
  | stays (hrst : s.inp.rst = false)
      (h : s.st = .halted ∨ s.st ≠ .halted ∧ s.cfg.deploy = .relayReceiver ∧ s.inp.pktIn = none) : BlockMove s s
  /-- R182 with `cancel` at 1. -/
  | receiverHalts (hrst : s.inp.rst = false) (hst : s.st ≠ .halted) (hdeploy : s.cfg.deploy = .relayReceiver)
      (b : Packet) (hb : s.inp.pktIn = some b) (hcancel : s.inp.cancel = true) : BlockMove s (halt s)
  /-- R182. -/
  | receiverRuns (hrst : s.inp.rst = false) (hst : s.st ≠ .halted) (hdeploy : s.cfg.deploy = .relayReceiver)
      (b : Packet) (hb : s.inp.pktIn = some b) (hcancel : s.inp.cancel = false) {t : State}
      (hexec : exec (decode b) (acceptPacket b s) = .next t) : BlockMove s t
  /-- R102. -/
  | poll (hrst : s.inp.rst = false) (hdeploy : s.cfg.deploy ≠ .relayReceiver) (hst : s.st = .idle) :
      BlockMove s (pollIdle s)
  /-- R100. -/
  | nibble (hrst : s.inp.rst = false) (hdeploy : s.cfg.deploy ≠ .relayReceiver) (hst : s.st = .awaitNibble) :
      BlockMove s (nibbleStep s)
  /-- R144, wired `Local`. -/
  | dispatchRuns (hrst : s.inp.rst = false) (hst : s.st = .done) (hdeploy : s.cfg.deploy = .localDeploy) {u : State}
      (hexec : exec (decode s.pkt) (emit (.packet s.pkt) s) = .next u) : BlockMove s { u with st := .idle }
  /-- R144, wired `RelaySender`. -/
  | dispatchShows (hrst : s.inp.rst = false) (hst : s.st = .done) (hdeploy : s.cfg.deploy = .relaySender) :
      BlockMove s { emit (.packet s.pkt) s with st := .idle }

/-! ### The moves of a nibble phase -/

/-- `NibbleMove s t`: one step of a nibble phase leads from `s` to `t`. One constructor per branch of a rule. -/
inductive NibbleMove (s : State) : State → Prop where
  /-- R104, R120 with `cancel` at 1. -/
  | halts (hsub : s.sub = .s1 ∨ s.sub = .s6) (hcancel : s.inp.cancel = true) : NibbleMove s (halt s)
  /-- R104, R120 where the clock has not changed yet. -/
  | waits (hsub : s.sub = .s1 ∨ s.sub = .s6) : NibbleMove s s
  /-- R104. -/
  | clockHigh (hsub : s.sub = .s1) : NibbleMove s { s with sub := .s2, cnt := s.cfg.tSettle }
  /-- R106, R116 where the counter lasts. -/
  | counts (hsub : s.sub = .s2 ∨ s.sub = .s5b) (hcnt : s.cnt ≠ 0) : NibbleMove s { s with cnt := s.cnt - 1 }
  /-- R106. -/
  | settles (hsub : s.sub = .s2) (hcnt : s.cnt = 0) : NibbleMove s { s with sub := .s3 }
  /-- R110. -/
  | drives (hsub : s.sub = .s3) : NibbleMove s (driveStatus s)
  /-- R112. -/
  | samples (hsub : s.sub = .s4) : NibbleMove s (sampleNibble s)
  /-- R114. -/
  | ackRises (hsub : s.sub = .s5a) : NibbleMove s (ackHigh s)
  /-- R116. -/
  | ackHeld (hsub : s.sub = .s5b) (hcnt : s.cnt = 0) : NibbleMove s { s with sub := .s5c }
  /-- R118. -/
  | ackFalls (hsub : s.sub = .s5c) : NibbleMove s (ackLow s)
  /-- R122 after nibble 0. -/
  | nextNibble (hsub : s.sub = .s6) (hlow : s.inp.pclk = false) (hni : s.ni = 0) :
      NibbleMove s { s with ni := 1, sub := .s1 }
  /-- R122 after nibble 1 of a byte before the last. -/
  | nextByte (hsub : s.sub = .s6) (hlow : s.inp.pclk = false) (hni : s.ni = 1) (hbi : s.bi.toNat < 6) :
      NibbleMove s { s with pkt := s.pkt.setByte s.bi s.acc, bi := s.bi + 1, ni := 0, sub := .s1 }
  /-- R122 after nibble 1 of the last byte. -/
  | lastByte (hsub : s.sub = .s6) (hlow : s.inp.pclk = false) (hni : s.ni = 1) (hbi : 6 ≤ s.bi.toNat) :
      NibbleMove s { s with pkt := s.pkt.setByte s.bi s.acc, st := .done }

section
variable {s t u : State}

/-! ### `rxStep` makes exactly these moves -/

theorem rxStep_of_halted (hrst : s.inp.rst = false) (h : s.st = .halted) : rxStep s = .next s := by
  simp [rxStep, hrst, h]

theorem rxStep_of_receiver (hrst : s.inp.rst = false) (hst : s.st ≠ .halted) (h : s.cfg.deploy = .relayReceiver) :
    rxStep s = pktInStep s := by
  simp [rxStep, hrst, hst, h]

theorem rxStep_of_lines (hrst : s.inp.rst = false) (hst : s.st ≠ .halted) (h : s.cfg.deploy ≠ .relayReceiver) :
    rxStep s = lineStep s := by
  simp [rxStep, hrst, hst, h]

theorem pktInStep_of_none (h : s.inp.pktIn = none) : pktInStep s = .next s := by simp [pktInStep, h]

theorem pktInStep_of_cancel {b : Packet} (h : s.inp.pktIn = some b) (hcancel : s.inp.cancel = true) :
    pktInStep s = .next (halt s) := by
  simp [pktInStep, h, hcancel]

theorem pktInStep_of_packet {b : Packet} (h : s.inp.pktIn = some b) (hcancel : s.inp.cancel = false) :
    pktInStep s = exec (decode b) (acceptPacket b s) := by
  simp [pktInStep, h, hcancel]

theorem BlockMove.rxStep_eq (h : BlockMove s t) : rxStep s = .next t := by
  cases h with
  | reset hrst => exact rxStep_of_rst hrst
  | stays hrst h =>
    rcases h with hst | ⟨hst, hdeploy, hb⟩
    · exact rxStep_of_halted hrst hst
    · rw [rxStep_of_receiver hrst hst hdeploy, pktInStep_of_none hb]
  | receiverHalts hrst hst hdeploy b hb hcancel =>
    rw [rxStep_of_receiver hrst hst hdeploy, pktInStep_of_cancel hb hcancel]
  | receiverRuns hrst hst hdeploy b hb hcancel hexec =>
    rw [rxStep_of_receiver hrst hst hdeploy, pktInStep_of_packet hb hcancel, hexec]
  | poll hrst hdeploy hst =>
    rw [rxStep_of_lines hrst (by simp [hst]) hdeploy]
    simp [lineStep, hst]
  | nibble hrst hdeploy hst =>
    rw [rxStep_of_lines hrst (by simp [hst]) hdeploy]
    simp [lineStep, hst]
  | dispatchRuns hrst hst hdeploy hexec =>
    rw [rxStep_of_lines hrst (by simp [hst]) (by simp [hdeploy])]
    simp only [lineStep, hst]
    rw [dispatchPacket_of_local hdeploy]
    exact onNext_eq_next.2 ⟨_, hexec, rfl⟩
  | dispatchShows hrst hst hdeploy =>
    rw [rxStep_of_lines hrst (by simp [hst]) (by simp [hdeploy])]
    simp only [lineStep, hst]
    exact dispatchPacket_of_not_local (by simp [hdeploy])

theorem blockMove_of_rxStep (h : rxStep s = .next t) : BlockMove s t := by
  rcases rxStep_cases h with ⟨hrst, rfl⟩ | ⟨hrst, hst, rfl⟩ | ⟨hrst, hst, hdeploy, hpkt⟩ | ⟨hrst, hdeploy, hst, rfl⟩ |
    ⟨hrst, hdeploy, hst, rfl⟩ | ⟨hrst, hdeploy, hst, hdone⟩
  · exact .reset hrst
  · exact .stays hrst (.inl hst)
  · rcases pktInStep_cases hpkt with ⟨hb, rfl⟩ | ⟨b, hb, hcancel, rfl⟩ | ⟨b, hb, hcancel, hexec⟩
    · exact .stays hrst (.inr ⟨hst, hdeploy, hb⟩)
    · exact .receiverHalts hrst hst hdeploy b hb hcancel
    · exact .receiverRuns hrst hst hdeploy b hb hcancel hexec
  · exact .poll hrst hdeploy hst
  · exact .nibble hrst hdeploy hst
  · rcases dispatchPacket_cases hdone with ⟨hlocal, u, hexec, rfl⟩ | ⟨hlocal, rfl⟩
    · exact .dispatchRuns hrst hst hlocal hexec
    · refine .dispatchShows hrst hst ?_
      cases hd : s.cfg.deploy with
      | localDeploy => exact absurd hd hlocal
      | relaySender => rfl
      | relayReceiver => exact absurd hd hdeploy

theorem rxStep_eq_next : rxStep s = .next t ↔ BlockMove s t := ⟨blockMove_of_rxStep, BlockMove.rxStep_eq⟩

/-- A step is a move of the block under the launch premises, and then the environment's move. -/
theorem step_eq_next_move : step s = .next t ↔ LaunchOk s.cfg ∧ ∃ u, BlockMove s u ∧ t = nextLevels u := by
  simp only [step_eq_next, rxStep_eq_next]

theorem step_of_move (hlaunch : LaunchOk s.cfg) (h : BlockMove s u) : step s = .next (nextLevels u) :=
  step_of_rxStep hlaunch h.rxStep_eq

/-! ### `nibbleStep`, one equation per sub-phase (R100) -/

theorem nibbleStep_of_s1 (h : s.sub = .s1) : nibbleStep s = waitClockHigh s := by rw [nibbleStep, h]
theorem nibbleStep_of_s2 (h : s.sub = .s2) : nibbleStep s = settle s := by rw [nibbleStep, h]
theorem nibbleStep_of_s3 (h : s.sub = .s3) : nibbleStep s = driveStatus s := by rw [nibbleStep, h]
theorem nibbleStep_of_s4 (h : s.sub = .s4) : nibbleStep s = sampleNibble s := by rw [nibbleStep, h]
theorem nibbleStep_of_s5a (h : s.sub = .s5a) : nibbleStep s = ackHigh s := by rw [nibbleStep, h]
theorem nibbleStep_of_s5b (h : s.sub = .s5b) : nibbleStep s = ackHold s := by rw [nibbleStep, h]
theorem nibbleStep_of_s5c (h : s.sub = .s5c) : nibbleStep s = ackLow s := by rw [nibbleStep, h]
theorem nibbleStep_of_s6 (h : s.sub = .s6) : nibbleStep s = waitClockLow s := by rw [nibbleStep, h]

/-! ### `nibbleStep` makes these moves -/

/-- Below 6 the byte index rises without wrap-around. -/
theorem bi_add_one_toNat {b : BitVec 3} (h : b.toNat < 6) : (b + 1).toNat = b.toNat + 1 :=
  BitVec.toNat_add_of_lt (by simp; omega)

theorem ni_eq_one (h : s.ni ≠ 0) : s.ni = 1 := by
  generalize s.ni = n at h
  revert n
  decide

theorem advance_of_full (hni : s.ni = 1) (hbi : 6 ≤ s.bi.toNat) :
    advance s = { s with pkt := s.pkt.setByte s.bi s.acc, st := .done } := by
  have hnot : ¬ s.bi < 6#3 := Nat.not_lt.2 hbi
  simp [advance, hni, hnot]

theorem nibbleMove_advance (hsub : s.sub = .s6) (hlow : s.inp.pclk = false) : NibbleMove s (advance s) := by
  by_cases hni : s.ni = 0
  · exact advance_of_first hni ▸ .nextNibble hsub hlow hni
  · have hni := ni_eq_one hni
    by_cases hbi : s.bi.toNat < 6
    · exact advance_of_second hni hbi ▸ .nextByte hsub hlow hni hbi
    · have hbi := Nat.le_of_not_lt hbi
      exact advance_of_full hni hbi ▸ .lastByte hsub hlow hni hbi

theorem nibbleMove_waitClockHigh (hsub : s.sub = .s1) : NibbleMove s (waitClockHigh s) := by
  unfold waitClockHigh
  split_ifs with hcancel
  · exact .halts (.inl hsub) hcancel
  · exact .clockHigh hsub
  · exact .waits (.inl hsub)

theorem nibbleMove_settle (hsub : s.sub = .s2) : NibbleMove s (settle s) := by
  unfold settle
  split_ifs with hcnt
  · exact .settles hsub hcnt
  · exact .counts (.inl hsub) hcnt

theorem nibbleMove_ackHold (hsub : s.sub = .s5b) : NibbleMove s (ackHold s) := by
  unfold ackHold
  split_ifs with hcnt
  · exact .ackHeld hsub hcnt
  · exact .counts (.inr hsub) hcnt

theorem nibbleMove_waitClockLow (hsub : s.sub = .s6) : NibbleMove s (waitClockLow s) := by
  unfold waitClockLow
  split_ifs with hcancel hlow
  · exact .halts (.inr hsub) hcancel
  · exact nibbleMove_advance hsub hlow
  · exact .waits (.inr hsub)

theorem nibbleMove_nibbleStep (s : State) : NibbleMove s (nibbleStep s) := by
  cases hsub : s.sub with
  | s1 => exact nibbleStep_of_s1 hsub ▸ nibbleMove_waitClockHigh hsub
  | s2 => exact nibbleStep_of_s2 hsub ▸ nibbleMove_settle hsub
  | s3 => exact nibbleStep_of_s3 hsub ▸ .drives hsub
  | s4 => exact nibbleStep_of_s4 hsub ▸ .samples hsub
  | s5a => exact nibbleStep_of_s5a hsub ▸ .ackRises hsub
  | s5b => exact nibbleStep_of_s5b hsub ▸ nibbleMove_ackHold hsub
  | s5c => exact nibbleStep_of_s5c hsub ▸ .ackFalls hsub
  | s6 => exact nibbleStep_of_s6 hsub ▸ nibbleMove_waitClockLow hsub

/-! ### What a nibble phase and the `Idle` poll leave alone -/

/-- The handshake touches neither the surface nor the configuration nor the environment's levels. -/
theorem NibbleMove.frame (h : NibbleMove s t) :
    t = { t with surf := s.surf, cfg := s.cfg, inp := s.inp, script := s.script, fills := s.fills } := by
  cases h <;> rfl

theorem pollIdle_frame (s : State) : pollIdle s =
    { pollIdle s with surf := s.surf, cfg := s.cfg, inp := s.inp, script := s.script, fills := s.fills } := by
  unfold pollIdle
  split_ifs <;> rfl

@[simp] theorem nibbleStep_surf : (nibbleStep s).surf = s.surf := by rw [(nibbleMove_nibbleStep s).frame]
@[simp] theorem nibbleStep_cfg : (nibbleStep s).cfg = s.cfg := by rw [(nibbleMove_nibbleStep s).frame]
@[simp] theorem nibbleStep_inp : (nibbleStep s).inp = s.inp := by rw [(nibbleMove_nibbleStep s).frame]
@[simp] theorem nibbleStep_script : (nibbleStep s).script = s.script := by rw [(nibbleMove_nibbleStep s).frame]
@[simp] theorem pollIdle_surf : (pollIdle s).surf = s.surf := by rw [pollIdle_frame]
@[simp] theorem pollIdle_cfg : (pollIdle s).cfg = s.cfg := by rw [pollIdle_frame]
@[simp] theorem pollIdle_inp : (pollIdle s).inp = s.inp := by rw [pollIdle_frame]
@[simp] theorem pollIdle_script : (pollIdle s).script = s.script := by rw [pollIdle_frame]

/-- No move changes the configuration or the script, and the levels change by a packet taken only. -/
theorem BlockMove.keeps_environment (h : BlockMove s t) :
    t.cfg = s.cfg ∧ t.script = s.script ∧ (t.inp = s.inp ∨ t.inp = { s.inp with pktIn := none }) := by
  cases h with
  | reset _ => exact ⟨rfl, rfl, .inl rfl⟩
  | stays _ _ => exact ⟨rfl, rfl, .inl rfl⟩
  | receiverHalts _ _ _ _ _ _ => exact ⟨rfl, rfl, .inl rfl⟩
  | receiverRuns _ _ _ _ _ _ hexec => rw [exec_frame hexec]; exact ⟨rfl, rfl, .inr rfl⟩
  | poll _ _ _ => exact ⟨pollIdle_cfg, pollIdle_script, .inl pollIdle_inp⟩
  | nibble _ _ _ => exact ⟨nibbleStep_cfg, nibbleStep_script, .inl nibbleStep_inp⟩
  | dispatchRuns _ _ _ hexec => rw [exec_frame hexec]; exact ⟨rfl, rfl, .inl rfl⟩
  | dispatchShows _ _ _ => exact ⟨rfl, rfl, .inl rfl⟩

/-! ### The block always has a move (R174) -/

theorem pktInStep_completes (hlaunch : LaunchOk s.cfg) : ∃ t, pktInStep s = .next t := by
  cases hb : s.inp.pktIn with
  | none => exact ⟨s, pktInStep_of_none hb⟩
  | some b =>
    cases hcancel : s.inp.cancel with
    | true => exact ⟨_, pktInStep_of_cancel hb hcancel⟩
    | false => exact pktInStep_of_packet hb hcancel ▸ exec_completes (s := acceptPacket b s) hlaunch (decode b)

theorem lineStep_completes (hlaunch : LaunchOk s.cfg) : ∃ t, lineStep s = .next t := by
  unfold lineStep
  split
  · exact ⟨_, rfl⟩
  · exact ⟨_, rfl⟩
  · obtain ⟨t, ht, -⟩ := dispatchPacket_completes hlaunch
    exact ⟨t, ht⟩
  · exact ⟨_, rfl⟩

theorem blockMove_exists (hlaunch : LaunchOk s.cfg) : ∃ t, BlockMove s t := by
  simp only [← rxStep_eq_next]
  by_cases hrst : s.inp.rst = true
  · exact ⟨_, rxStep_of_rst hrst⟩
  rw [Bool.not_eq_true] at hrst
  by_cases hst : s.st = .halted
  · exact ⟨_, rxStep_of_halted hrst hst⟩
  by_cases hdeploy : s.cfg.deploy = .relayReceiver
  · exact rxStep_of_receiver hrst hst hdeploy ▸ pktInStep_completes hlaunch
  · exact rxStep_of_lines hrst hst hdeploy ▸ lineStep_completes hlaunch

end

end Sys2Proof.Machine
end

section
/-! PROOFS. The statements about single steps (10_state.md, 41_packet_assembler.md, 44_packet_ports.md,
60_exceptions.md, 70_reset_and_hazards.md), each by the cases of `BlockMove` and `NibbleMove`. -/

namespace Sys2Proof.Machine

section
variable {s t u : State}

/-! ### Where the block halts -/

theorem NibbleMove.halted_read_cancel (h : NibbleMove s t) (hst : s.st = .awaitNibble) (ht : t.st = .halted) :
    (s.sub = .s1 ∨ s.sub = .s6) ∧ s.inp.cancel = true := by
  cases h with
  | halts hsub hcancel => exact ⟨hsub, hcancel⟩
  | lastByte _ _ _ _ => cases ht
  | waits _ | clockHigh _ | counts _ _ | settles _ _ | drives _ | samples _ | ackRises _ | ackHeld _ _ | ackFalls _
  | nextNibble _ _ _ | nextByte _ _ _ _ => cases hst.symm.trans ht

theorem pollIdle_halted_read_cancel (hst : s.st = .idle) (ht : (pollIdle s).st = .halted) : s.inp.cancel = true := by
  by_contra hcancel
  rw [Bool.not_eq_true] at hcancel
  cases hstart : s.inp.start with
  | true => rw [pollIdle_of_no_start hcancel hstart, hst] at ht; cases ht
  | false => rw [pollIdle_of_start hcancel hstart] at ht; cases ht

/-! ### The packet buffer and the byte index -/

/-- What `bi` and the buffer can do in a nibble phase (R122). -/
theorem NibbleMove.buffer (h : NibbleMove s t) :
    (t.pkt = s.pkt ∧ t.bi = s.bi) ∨
    (s.sub = .s6 ∧ s.ni = 1 ∧ s.inp.pclk = false ∧ t.pkt = s.pkt.setByte s.bi s.acc ∧
      (s.bi.toNat < 6 ∧ t.bi.toNat = s.bi.toNat + 1 ∨ t.bi = s.bi ∧ t.st = .done)) := by
  cases h with
  | nextByte hsub hlow hni hbi =>
    exact .inr ⟨hsub, hni, hlow, rfl, .inl ⟨hbi, bi_add_one_toNat hbi⟩⟩
  | lastByte hsub hlow hni _ => exact .inr ⟨hsub, hni, hlow, rfl, .inr ⟨rfl, rfl⟩⟩
  | halts _ _ | waits _ | clockHigh _ | counts _ _ | settles _ _ | drives _ | samples _ | ackRises _ | ackHeld _ _
  | ackFalls _ | nextNibble _ _ _ => exact .inl ⟨rfl, rfl⟩

/-- What they can do in any step. -/
theorem step_buffer (h : step s = .next t) :
    (t.pkt = s.pkt ∧ t.bi = s.bi) ∨
    (s.inp.rst = true ∧ t.pkt = .zero ∧ t.bi = 0) ∨
    (LinesLive s ∧ s.st = .idle ∧ s.inp.start = false ∧ t.st = .awaitNibble ∧ t.bi = 0 ∧ t.pkt = .zero) ∨
    (InSub s .s6 ∧ s.ni = 1 ∧ s.inp.pclk = false ∧ t.pkt = s.pkt.setByte s.bi s.acc ∧
      (s.bi.toNat < 6 ∧ t.bi.toNat = s.bi.toNat + 1 ∨ t.bi = s.bi ∧ t.st = .done)) := by
  obtain ⟨hlaunch, u, hmove, rfl⟩ := step_eq_next_move.1 h
  simp only [nextLevels_pkt, nextLevels_bi, nextLevels_st]
  cases hmove with
  | reset hrst => exact .inr (.inl ⟨hrst, rfl, rfl⟩)
  | stays _ _ => exact .inl ⟨rfl, rfl⟩
  | receiverHalts _ _ _ _ _ _ => exact .inl ⟨rfl, rfl⟩
  | receiverRuns _ _ _ _ _ _ hexec => rw [exec_frame hexec]; exact .inl ⟨rfl, rfl⟩
  | poll hrst hdeploy hst =>
    unfold pollIdle
    split_ifs with _ hstart
    · exact .inl ⟨rfl, rfl⟩
    · exact .inr (.inr (.inl ⟨⟨hlaunch, hrst, hdeploy⟩, hst, hstart, rfl, rfl, rfl⟩))
    · exact .inl ⟨rfl, rfl⟩
  | nibble hrst hdeploy hst =>
    rcases (nibbleMove_nibbleStep s).buffer with hsame | ⟨hsub, hwrite⟩
    · exact .inl hsame
    · exact .inr (.inr (.inr ⟨⟨⟨hlaunch, hrst, hdeploy⟩, hst, hsub⟩, hwrite⟩))
  | dispatchRuns _ _ _ hexec => rw [exec_frame hexec]; exact .inl ⟨rfl, rfl⟩
  | dispatchShows _ _ _ => exact .inl ⟨rfl, rfl⟩

/-! ### The packets on `PKT_OUT` -/

/-- The packets that events alone would show. -/
theorem transportView_append {es : List Event} (h : t.history = s.history ++ es) :
    transportView t = transportView s ++ transportView { s with history := es } := by
  simp only [transportView, h, List.filterMap_append]

theorem transportView_eq_nil (h : ∀ b, Event.packet b ∉ s.history) : transportView s = [] := by
  unfold transportView
  refine List.filterMap_eq_nil_iff.2 fun e he => ?_
  cases e with
  | packet b => exact absurd he (h b)
  | _ => rfl

/-- `t`'s history is that of `s` with some more events, and no packet is among them. -/
def AddsNoPacket (s t : State) : Prop := ∃ es, t.history = s.history ++ es ∧ ∀ b, Event.packet b ∉ es

theorem AddsNoPacket.transportView_eq (h : AddsNoPacket s t) : transportView t = transportView s := by
  obtain ⟨es, hes, hnone⟩ := h
  rw [transportView_append hes, transportView_eq_nil (s := { s with history := es }) hnone, List.append_nil]

theorem addsNoPacket_of_same (h : t.history = s.history) : AddsNoPacket s t := ⟨[], by simp [h], by simp⟩

theorem addsNoPacket_of_one {e : Event} (h : t.history = s.history ++ [e]) (he : ∀ b, e ≠ .packet b) :
    AddsNoPacket s t :=
  ⟨[e], h, fun b hb => he b (List.mem_singleton.1 hb).symm⟩

theorem addsNoPacket_exec {i : Instr} (h : exec i s = .next t) : AddsNoPacket s t := by
  obtain ⟨es, hes, hwrites⟩ := exec_history h
  refine ⟨es, hes, fun b hb => ?_⟩
  obtain ⟨off, v, hwrite, -⟩ := hwrites _ hb
  cases hwrite

theorem NibbleMove.addsNoPacket (h : NibbleMove s t) : AddsNoPacket s t := by
  cases h with
  | halts _ _ => exact addsNoPacket_of_one rfl nofun
  | drives _ => exact addsNoPacket_of_one rfl nofun
  | samples _ => exact addsNoPacket_of_one rfl nofun
  | ackRises _ => exact addsNoPacket_of_one rfl nofun
  | ackFalls _ => exact addsNoPacket_of_one rfl nofun
  | waits _ | clockHigh _ | counts _ _ | settles _ _ | ackHeld _ _ | nextNibble _ _ _ | nextByte _ _ _ _
  | lastByte _ _ _ _ => exact addsNoPacket_of_same rfl

theorem addsNoPacket_pollIdle (s : State) : AddsNoPacket s (pollIdle s) := by
  unfold pollIdle
  split_ifs
  · exact addsNoPacket_of_one rfl nofun
  · exact addsNoPacket_of_one rfl nofun
  · exact addsNoPacket_of_same rfl

theorem transportView_emit_packet (b : Packet) : transportView (emit (.packet b) s) = transportView s ++ [b] := by
  rw [transportView_append (emit_history s _)]
  rfl

/-- A move without `rst` shows the buffer's packet if it is a dispatch, and none otherwise. -/
theorem BlockMove.transportView_eq (h : BlockMove s t) (hrst : s.inp.rst = false) :
    transportView t = transportView s ++ if s.st = .done ∧ s.cfg.deploy ≠ .relayReceiver then [s.pkt] else [] := by
  cases h with
  | reset h => simp [h] at hrst
  | stays _ h =>
    rw [if_neg, List.append_nil]
    rcases h with hst | ⟨-, hdeploy, -⟩ <;> simp [*]
  | receiverHalts _ _ hdeploy _ _ _ =>
    rw [if_neg (by simp [hdeploy]), List.append_nil]
    exact (addsNoPacket_of_one (halt_history s) nofun).transportView_eq
  | receiverRuns _ _ hdeploy b _ _ hexec =>
    rw [if_neg (by simp [hdeploy]), List.append_nil, (addsNoPacket_exec hexec).transportView_eq]
    exact (addsNoPacket_of_one (acceptPacket_history s b) nofun).transportView_eq
  | poll _ _ hst =>
    rw [if_neg (by simp [hst]), List.append_nil, (addsNoPacket_pollIdle s).transportView_eq]
  | nibble _ _ hst =>
    rw [if_neg (by simp [hst]), List.append_nil, (nibbleMove_nibbleStep s).addsNoPacket.transportView_eq]
  | dispatchRuns _ hst hdeploy hexec =>
    rw [if_pos (by simp [hst, hdeploy]), ← transportView_emit_packet]
    exact (addsNoPacket_exec hexec).transportView_eq
  | dispatchShows _ hst hdeploy =>
    rw [if_pos (by simp [hst, hdeploy])]
    exact transportView_emit_packet s.pkt

end

/-! ### The statements, settled -/

/-- Settles O35: halted or not, a receiver without an offer has no step. -/
theorem receiverIgnoresItsLines : Obligations.ReceiverIgnoresItsLines := by
  unfold Obligations.ReceiverIgnoresItsLines
  intro s hlaunch hrst hdeploy hb
  refine step_of_move hlaunch (.stays hrst ?_)
  by_cases hst : s.st = .halted
  · exact .inl hst
  · exact .inr ⟨hst, hdeploy, hb⟩

/-- Settles O34: the step is the `PKT_IN` step, whose command completes and leaves the sequencer. -/
theorem receiverRunsThePacketItTakes : Obligations.ReceiverRunsThePacketItTakes := by
  unfold Obligations.ReceiverRunsThePacketItTakes
  intro s b hlaunch hrst hdeploy hst hb
  refine ⟨fun hcancel => step_of_move hlaunch (.receiverHalts hrst hst hdeploy b hb hcancel), fun hcancel => ?_⟩
  obtain ⟨t, hexec⟩ := exec_completes (s := acceptPacket b s) hlaunch (decode b)
  have hstep := step_of_move hlaunch (.receiverRuns hrst hst hdeploy b hb hcancel hexec)
  refine ⟨?_, _, hstep, ?_⟩
  · rw [hstep, eq_comm]
    exact onNext_eq_next.2 ⟨t, hexec, rfl⟩
  · rw [nextLevels_st, exec_frame hexec, acceptPacket_st]

/-- Settles O37: the values stand in `State.powerUp`, and State.reset is the power-up of the reference record. -/
theorem resetValues : Obligations.ResetValues := by
  unfold Obligations.ResetValues
  refine ⟨powerUp_cfg, ⟨_, rfl⟩, ?_⟩
  rintro _ ⟨c, rfl⟩
  exact ⟨rfl, rfl, rfl, rfl, rfl, rfl, rfl, rfl, rfl, rfl⟩

/-- Settles O39, move by move: the moves into `Halted` are those that read `cancel`, and from `Halted` only a reset
leads elsewhere. -/
theorem onlyCancelHaltsAndOnlyResetResumes : Obligations.OnlyCancelHaltsAndOnlyResetResumes := by
  unfold Obligations.OnlyCancelHaltsAndOnlyResetResumes
  intro s t hstep
  obtain ⟨-, u, hmove, rfl⟩ := step_eq_next_move.1 hstep
  rw [nextLevels_st]
  cases hmove with
  | reset hrst => exact ⟨nofun, fun _ _ => hrst⟩
  | stays _ _ => exact ⟨fun hne hst => absurd hst hne, fun hst hne => absurd hst hne⟩
  | receiverHalts hrst hst hdeploy b hb hcancel =>
    exact ⟨fun _ _ => ⟨hcancel, hrst, .inr ⟨hdeploy, by simp [hb]⟩⟩, fun h => absurd h hst⟩
  | receiverRuns _ hst _ _ _ _ hexec =>
    rw [exec_frame hexec]
    exact ⟨fun hne h => absurd h hne, fun h => absurd h hst⟩
  | poll hrst hdeploy hst =>
    refine ⟨fun _ h => ?_, by simp [hst]⟩
    exact ⟨pollIdle_halted_read_cancel hst h, hrst, .inl ⟨hdeploy, .inl hst⟩⟩
  | nibble hrst hdeploy hst =>
    refine ⟨fun _ h => ?_, by simp [hst]⟩
    obtain ⟨hsub, hcancel⟩ := (nibbleMove_nibbleStep s).halted_read_cancel hst h
    exact ⟨hcancel, hrst, .inl ⟨hdeploy, .inr ⟨hst, hsub⟩⟩⟩
  | dispatchRuns _ hst _ _ => exact ⟨nofun, by simp [hst]⟩
  | dispatchShows _ hst _ => exact ⟨nofun, by simp [hst]⟩

/-- Settles O44: of the ways a step can treat the buffer and `bi`, the first changes neither. -/
theorem packetBufferIsWrittenInOrder : Obligations.PacketBufferIsWrittenInOrder := by
  unfold Obligations.PacketBufferIsWrittenInOrder
  intro s t hstep
  rcases step_buffer hstep with ⟨hpkt, hbi⟩ | ⟨hrst, hpkt, hbi⟩ | hstart | ⟨hin, hni, hlow, hpkt, hbi⟩
  · exact ⟨fun hne => absurd hpkt hne, fun hne => absurd hbi hne⟩
  · exact ⟨fun _ => .inl ⟨hrst, hpkt⟩, fun _ => .inl ⟨hrst, hbi⟩⟩
  · exact ⟨fun _ => .inr (.inl hstart), fun _ => .inr (.inl hstart)⟩
  · refine ⟨fun _ => .inr (.inr ⟨hin, hni, hlow, hpkt, ?_⟩), fun hne => .inr (.inr ⟨hin, hni, hlow, hpkt, ?_⟩)⟩
    · rcases hbi with ⟨-, hrise⟩ | ⟨-, hdone⟩
      · exact .inl fun heq => by rw [heq] at hrise; omega
      · exact .inr hdone
    · rcases hbi with hrise | ⟨hsame, -⟩
      · exact hrise
      · exact absurd hsame hne

/-- Settles O45: every move but the two that run a command keeps the surface. -/
theorem onlyCommandsWriteTheSurface : Obligations.OnlyCommandsWriteTheSurface := by
  unfold Obligations.OnlyCommandsWriteTheSurface
  intro s t hstep hne
  obtain ⟨-, u, hmove, rfl⟩ := step_eq_next_move.1 hstep
  rw [nextLevels_surf] at hne
  cases hmove with
  | receiverRuns hrst hst hdeploy b hb hcancel _ => exact ⟨hrst, .inr ⟨hdeploy, hst, hcancel, b, hb⟩⟩
  | dispatchRuns hrst hst hdeploy _ => exact ⟨hrst, .inl ⟨hdeploy, hst⟩⟩
  | poll _ _ _ => exact absurd pollIdle_surf hne
  | nibble _ _ _ => exact absurd nibbleStep_surf hne
  | reset _ | stays _ _ | receiverHalts _ _ _ _ _ _ | dispatchShows _ _ _ => exact absurd rfl hne

/-- Settles O46: the environment's move leaves the history, so the step shows what the block's move shows. -/
theorem pktOutGetsOnePacketPerDispatch : Obligations.PktOutGetsOnePacketPerDispatch := by
  unfold Obligations.PktOutGetsOnePacketPerDispatch
  intro s t hstep hrst
  obtain ⟨-, u, hmove, rfl⟩ := step_eq_next_move.1 hstep
  rw [← hmove.transportView_eq hrst]
  exact (addsNoPacket_of_same (nextLevels_history u)).transportView_eq

/-- Settles O47: the block's move keeps the record and the script, and the environment's move takes the next levels. -/
theorem configurationIsConstant : Obligations.ConfigurationIsConstant := by
  unfold Obligations.ConfigurationIsConstant
  intro s t hstep
  obtain ⟨-, u, hmove, rfl⟩ := step_eq_next_move.1 hstep
  obtain ⟨hcfg, hscript, hinp⟩ := hmove.keeps_environment
  refine ⟨by rw [nextLevels_cfg, hcfg], fun i rest h => ?_, fun h => ?_⟩
  · rw [nextLevels_cons u i rest (hscript.trans h)]
    exact ⟨rfl, rfl⟩
  · rw [nextLevels_nil u (hscript.trans h)]
    exact ⟨hscript.trans h, hinp⟩

/-- Settles O48: under the premises the block has a move, and the check of the premises is the step's first. -/
theorem stepsStopOnlyAtABadLaunch : Obligations.StepsStopOnlyAtABadLaunch := by
  unfold Obligations.StepsStopOnlyAtABadLaunch
  refine fun s => ⟨fun hlaunch => ?_, fun hbad => if_neg hbad⟩
  obtain ⟨u, hmove⟩ := blockMove_exists hlaunch
  exact ⟨_, step_of_move hlaunch hmove⟩

/-- Settles O38: without `rst` each step from `Halted` is the environment's move alone. -/
theorem haltedHoldsUntilReset : Obligations.HaltedHoldsUntilReset := by
  unfold Obligations.HaltedHoldsUntilReset
  intro n
  induction n with
  | zero => exact fun s _ _ _ => ⟨s, rfl, rfl⟩
  | succ n ih =>
    intro s hlaunch hst hrst
    have hstep := step_of_move hlaunch (.stays (hrst s.inp List.mem_cons_self) (.inl hst))
    obtain ⟨t, hrun, ht⟩ := ih (nextLevels s) (by rwa [nextLevels_cfg]) (by rwa [nextLevels_st])
      fun i hi => hrst i (levels_nextLevels_subset s hi)
    refine ⟨t, (run_succ_of_step hstep).trans hrun, ?_⟩
    rw [ht]
    cases hs : s.script with
    | nil => rw [nextLevels_nil s hs]
    | cons i rest => rw [nextLevels_cons s i rest hs]

end Sys2Proof.Machine
end

section
/-! PROOFS. What a step does not read: each line outside the steps its rules name (40_handshake_decoder.md sections 2
and 3), the surface (20_memory.md sections 1 and 9) and the status lines (60_exceptions.md section 11). One lemma says
it of all three: `RX` makes the same move from a state in which they are overwritten. -/

namespace Sys2Proof.Machine

/-- `s` with another surface, other values of the status lines, and its input levels overwritten by `g`. -/
def overwrite (g : Inputs → Inputs) (m : Memory) (v : BitVec 3) (s : State) : State :=
  { s with inp := g s.inp, surf := m, status := v }

/-- What `g` overwrites in the input levels is none of the levels that `RX` reads in its step from `s`. -/
structure ReadsKept (g : Inputs → Inputs) (s : State) : Prop where
  rst : (g s.inp).rst = s.inp.rst
  pktIn : (g s.inp).pktIn = s.inp.pktIn
  taken : g { s.inp with pktIn := none } = { g s.inp with pktIn := none }
  start : s.st = .idle → (g s.inp).start = s.inp.start
  pclk : s.st = .awaitNibble → s.sub = .s1 ∨ s.sub = .s6 → (g s.inp).pclk = s.inp.pclk
  d : s.st = .awaitNibble → s.sub = .s4 → (g s.inp).d = s.inp.d
  cancel : s.cfg.deploy = .relayReceiver ∨ s.st = .idle ∨ (s.st = .awaitNibble ∧ (s.sub = .s1 ∨ s.sub = .s6)) →
    (g s.inp).cancel = s.inp.cancel

section
variable {s t : State} {g : Inputs → Inputs} (m : Memory) (v : BitVec 3)

theorem readsKept_id (s : State) : ReadsKept id s :=
  ⟨rfl, rfl, rfl, fun _ => rfl, fun _ _ => rfl, fun _ _ => rfl, fun _ => rfl⟩

/-! ### A command reads the configuration and the fill counter only -/

/-- The same command at another state with the same configuration and fill counter: it completes there too, adds the
same events, changes nothing else but the surface, and leaves the same surface if it found the same. -/
theorem exec_transfer {i : Instr} {s' : State} (h : exec i s = .next t) (hcfg : s'.cfg = s.cfg)
    (hfills : s'.fills = s.fills) :
    ∃ m' es, exec i s' = .next { s' with surf := m', history := s'.history ++ es, fills := t.fills } ∧
      t.history = s.history ++ es ∧ (s'.surf = s.surf → m' = t.surf) := by
  rcases exec_operation i with ⟨c, hop⟩ | ⟨x, y, c, hop⟩ | hop <;> rw [hop] at h <;> simp only [hop]
  · rw [fillWhole_eq_next.1 h]
    exact ⟨_, _, fillWhole_eq_next.2 (by rw [hcfg, hfills]), rfl, fun hsurf => by rw [hsurf]⟩
  · rcases setPixel_eq_next.1 h with ⟨hb, hinside, rfl⟩ | ⟨hb, rfl⟩
    · exact ⟨_, _, setPixel_eq_next.2 (.inl ⟨hcfg ▸ hb, hcfg ▸ hinside, by rw [hcfg, hfills]⟩), rfl,
        fun hsurf => by rw [hsurf]⟩
    · exact ⟨s'.surf, [], setPixel_eq_next.2 (.inr ⟨hcfg ▸ hb, by simp [← hfills]⟩), by simp, fun hsurf => hsurf⟩
  · cases h
    exact ⟨s'.surf, [], by simp [← hfills], by simp, fun hsurf => hsurf⟩

/-! ### The moves from an overwritten state -/

theorem pollIdle_overwrite (hg : ReadsKept g s) (hst : s.st = .idle) :
    pollIdle (overwrite g m v s) = overwrite g m v (pollIdle s) := by
  have hcancel : (overwrite g m v s).inp.cancel = s.inp.cancel := hg.cancel (.inr (.inl hst))
  have hstart : (overwrite g m v s).inp.start = s.inp.start := hg.start hst
  unfold pollIdle
  rw [hcancel, hstart]
  split_ifs <;> rfl

theorem advance_overwrite : advance (overwrite g m v s) = overwrite g m v (advance s) := by
  unfold advance
  rw [apply_ite (overwrite g m v), apply_ite (overwrite g m v)]
  rfl

theorem settle_overwrite : settle (overwrite g m v s) = overwrite g m v (settle s) := by
  unfold settle
  rw [apply_ite (overwrite g m v)]
  rfl

theorem ackHold_overwrite : ackHold (overwrite g m v s) = overwrite g m v (ackHold s) := by
  unfold ackHold
  rw [apply_ite (overwrite g m v)]
  rfl

theorem waitClockHigh_overwrite (hcancel : (g s.inp).cancel = s.inp.cancel) (hpclk : (g s.inp).pclk = s.inp.pclk) :
    waitClockHigh (overwrite g m v s) = overwrite g m v (waitClockHigh s) := by
  have hcancel' : (overwrite g m v s).inp.cancel = s.inp.cancel := hcancel
  have hpclk' : (overwrite g m v s).inp.pclk = s.inp.pclk := hpclk
  unfold waitClockHigh
  rw [hcancel', hpclk']
  split_ifs <;> rfl

theorem waitClockLow_overwrite (hcancel : (g s.inp).cancel = s.inp.cancel) (hpclk : (g s.inp).pclk = s.inp.pclk) :
    waitClockLow (overwrite g m v s) = overwrite g m v (waitClockLow s) := by
  have hcancel' : (overwrite g m v s).inp.cancel = s.inp.cancel := hcancel
  have hpclk' : (overwrite g m v s).inp.pclk = s.inp.pclk := hpclk
  unfold waitClockLow
  rw [hcancel', hpclk', advance_overwrite]
  split_ifs <;> rfl

theorem sampleNibble_overwrite (hd : (g s.inp).d = s.inp.d) :
    sampleNibble (overwrite g m v s) = overwrite g m v (sampleNibble s) := by
  simp only [sampleNibble, overwrite, hd]
  rfl

/-- Every sub-phase but `S3` leaves the overwritten status lines as they are. -/
theorem nibbleStep_overwrite_of_ne_s3 (hg : ReadsKept g s) (hst : s.st = .awaitNibble) (hs3 : s.sub ≠ .s3) :
    nibbleStep (overwrite g m v s) = overwrite g m v (nibbleStep s) := by
  have hcancel (h : s.sub = .s1 ∨ s.sub = .s6) := hg.cancel (.inr (.inr ⟨hst, h⟩))
  have hpclk := hg.pclk hst
  cases hsub : s.sub with
  | s1 =>
    rw [nibbleStep_of_s1 hsub, nibbleStep_of_s1 (by exact hsub),
      waitClockHigh_overwrite m v (hcancel (.inl hsub)) (hpclk (.inl hsub))]
  | s2 => rw [nibbleStep_of_s2 hsub, nibbleStep_of_s2 (by exact hsub), settle_overwrite]
  | s3 => exact absurd hsub hs3
  | s4 => rw [nibbleStep_of_s4 hsub, nibbleStep_of_s4 (by exact hsub), sampleNibble_overwrite m v (hg.d hst hsub)]
  | s5a => rw [nibbleStep_of_s5a hsub, nibbleStep_of_s5a (by exact hsub)]; rfl
  | s5b => rw [nibbleStep_of_s5b hsub, nibbleStep_of_s5b (by exact hsub), ackHold_overwrite]
  | s5c => rw [nibbleStep_of_s5c hsub, nibbleStep_of_s5c (by exact hsub)]; rfl
  | s6 =>
    rw [nibbleStep_of_s6 hsub, nibbleStep_of_s6 (by exact hsub),
      waitClockLow_overwrite m v (hcancel (.inr hsub)) (hpclk (.inr hsub))]

/-- `S3` writes `bi` to them, whatever they were. -/
theorem nibbleStep_overwrite (hg : ReadsKept g s) (hst : s.st = .awaitNibble) :
    ∃ w, nibbleStep (overwrite g m v s) = overwrite g m w (nibbleStep s) ∧
      (v = s.status → w = (nibbleStep s).status) := by
  by_cases hs3 : s.sub = .s3
  · rw [nibbleStep_of_s3 hs3, nibbleStep_of_s3 (by exact hs3)]
    exact ⟨s.bi, rfl, fun _ => rfl⟩
  · exact ⟨v, nibbleStep_overwrite_of_ne_s3 m v hg hst hs3, fun hv => by rw [nibbleStep_status hs3, hv]⟩

/-- Each move of `RX` is made from the overwritten state too. What is overwritten stays so, but for a surface or a
status that the move writes. -/
theorem blockMove_overwrite (hg : ReadsKept g s) (h : BlockMove s t) :
    ∃ m' w, BlockMove (overwrite g m v s) (overwrite g m' w t) ∧ (m = s.surf → m' = t.surf) ∧
      (v = s.status → w = t.status) := by
  have hrst' (hrst : s.inp.rst = false) : (overwrite g m v s).inp.rst = false := hg.rst.trans hrst
  cases h with
  | reset hrst => exact ⟨m, 0, .reset (hg.rst.trans hrst), id, fun _ => rfl⟩
  | stays hrst h =>
    exact ⟨m, v, .stays (hrst' hrst) (h.imp_right fun ⟨hst, hdeploy, hb⟩ => ⟨hst, hdeploy, hg.pktIn.trans hb⟩), id, id⟩
  | receiverHalts hrst hst hdeploy b hb hcancel =>
    have hcancel' := (hg.cancel (.inl hdeploy)).trans hcancel
    exact ⟨m, v, .receiverHalts (hrst' hrst) hst hdeploy b (hg.pktIn.trans hb) hcancel', id, id⟩
  | receiverRuns hrst hst hdeploy b hb hcancel hexec =>
    obtain ⟨m', es, hexec', hes, hsurf⟩ :=
      exec_transfer (s' := acceptPacket b (overwrite g m v s)) hexec rfl rfl
    have hframe := exec_frame hexec
    have hmove : BlockMove (overwrite g m v s) _ := .receiverRuns (hrst' hrst) hst hdeploy b (hg.pktIn.trans hb)
      ((hg.cancel (.inl hdeploy)).trans hcancel) hexec'
    refine ⟨m', v, ?_, hsurf, fun hv => by rw [hframe]; exact hv⟩
    convert hmove using 1
    rw [hframe, hes]
    simp only [overwrite, acceptPacket_inp, hg.taken]
    rfl
  | poll hrst hdeploy hst =>
    exact ⟨m, v, pollIdle_overwrite m v hg hst ▸ .poll (hrst' hrst) hdeploy hst, fun hm => hm.trans pollIdle_surf.symm,
      fun hv => hv.trans pollIdle_status.symm⟩
  | nibble hrst hdeploy hst =>
    obtain ⟨w, hnibble, hstatus⟩ := nibbleStep_overwrite m v hg hst
    exact ⟨m, w, hnibble ▸ .nibble (hrst' hrst) hdeploy hst, fun hm => hm.trans nibbleStep_surf.symm, hstatus⟩
  | @dispatchRuns hrst hst hdeploy u hexec =>
    obtain ⟨m', es, hexec', hes, hsurf⟩ :=
      exec_transfer (s' := emit (.packet s.pkt) (overwrite g m v s)) hexec rfl rfl
    have hframe := exec_frame hexec
    have hmove : BlockMove (overwrite g m v s) _ := .dispatchRuns (hrst' hrst) hst hdeploy hexec'
    refine ⟨m', v, ?_, hsurf, fun hv => by rw [hframe]; exact hv⟩
    convert hmove using 1
    rw [hframe, hes]
    rfl
  | dispatchShows hrst hst hdeploy => exact ⟨m, v, .dispatchShows (hrst' hrst) hst hdeploy, id, id⟩

/-! ### The environment's move and whole runs -/

theorem nextLevels_overwrite_id : nextLevels (overwrite id m v s) = overwrite id m v (nextLevels s) := by
  cases hs : s.script with
  | nil => rw [nextLevels_nil s hs, nextLevels_nil _ (by exact hs)]
  | cons i rest => rw [nextLevels_cons s i rest hs, nextLevels_cons _ i rest (by exact hs)]; rfl

/-- A run from another surface and other status lines. -/
theorem run_overwrite {n : Nat} (h : run n s = .next t) :
    ∃ m' w, run n (overwrite id m v s) = .next (overwrite id m' w t) ∧ (m = s.surf → m' = t.surf) ∧
      (v = s.status → w = t.status) := by
  induction n generalizing s m v with
  | zero => cases h; exact ⟨m, v, rfl, id, id⟩
  | succ n ih =>
    obtain ⟨s₁, hstep, hrun⟩ := onNext_eq_next.1 h
    obtain ⟨hlaunch, u, hmove, rfl⟩ := step_eq_next_move.1 hstep
    obtain ⟨m₁, w₁, hmove', hm₁, hw₁⟩ := blockMove_overwrite m v (readsKept_id s) hmove
    obtain ⟨m', w, hrun', hm', hw⟩ := ih m₁ w₁ hrun
    have hstep' := step_of_move (by exact hlaunch) hmove'
    rw [nextLevels_overwrite_id] at hstep'
    refine ⟨m', w, (run_succ_of_step hstep').trans hrun', fun hm => hm' ?_, fun hv => hw ?_⟩
    · rw [hm₁ hm, nextLevels_surf]
    · rw [hw₁ hv, nextLevels_status]

/-! ### One line -/

/-- The levels overwritten before the step and after it are the levels overwritten after it. -/
theorem mapInputs_nextLevels (hidem : ∀ i, g (g i) = g i) :
    mapInputs g (nextLevels (mapInputs g s)) = mapInputs g (nextLevels s) := by
  cases hs : s.script with
  | nil => rw [nextLevels_nil s hs, nextLevels_nil _ (by exact hs)]; simp only [mapInputs, hidem]
  | cons i rest => rw [nextLevels_cons s i rest hs, nextLevels_cons _ i rest (by exact hs)]; rfl

/-- A step ignores what overwrites no level that it reads. -/
theorem stepIgnores_of_readsKept (hidem : ∀ i, g (g i) = g i) (hg : ReadsKept g s) : StepIgnores g s := by
  unfold StepIgnores
  by_cases hlaunch : LaunchOk s.cfg
  · obtain ⟨t, hmove⟩ := blockMove_exists hlaunch
    obtain ⟨m', w, hmove', hm, hw⟩ := blockMove_overwrite s.surf s.status hg hmove
    rw [hm rfl, hw rfl] at hmove'
    have hstep : step (mapInputs g s) = .next (nextLevels (mapInputs g t)) := step_of_move hlaunch hmove'
    rw [hstep, step_of_move hlaunch hmove, onNext_next, onNext_next, mapInputs_nextLevels hidem]
  · rw [(stepsStopOnlyAtABadLaunch s).2 hlaunch, (stepsStopOnlyAtABadLaunch (mapInputs g s)).2 hlaunch]

end

/-! ### The statements, settled -/

/-- Settles O41: for each line, the overwriting keeps the other lines, and this one where the step reads it, because
there is no such step among those named. -/
theorem linesAreReadOnlyWhereTheRulesReadThem : Obligations.LinesAreReadOnlyWhereTheRulesReadThem := by
  unfold Obligations.LinesAreReadOnlyWhereTheRulesReadThem
  refine fun s => ⟨fun hst b => ?_, fun hclock b => ?_, fun hs4 n => ?_, fun hreads hdeploy b => ?_⟩
  · exact stepIgnores_of_readsKept (fun _ => rfl)
      ⟨rfl, rfl, rfl, fun h => absurd h hst, fun _ _ => rfl, fun _ _ => rfl, fun _ => rfl⟩
  · exact stepIgnores_of_readsKept (fun _ => rfl)
      ⟨rfl, rfl, rfl, fun _ => rfl, fun h h' => absurd ⟨h, h'⟩ hclock, fun _ _ => rfl, fun _ => rfl⟩
  · exact stepIgnores_of_readsKept (fun _ => rfl)
      ⟨rfl, rfl, rfl, fun _ => rfl, fun _ _ => rfl, fun h h' => absurd ⟨h, h'⟩ hs4, fun _ => rfl⟩
  · exact stepIgnores_of_readsKept (fun _ => rfl)
      ⟨rfl, rfl, rfl, fun _ => rfl, fun _ _ => rfl, fun _ _ => rfl, fun h => absurd h (not_or.2 ⟨hdeploy, hreads⟩)⟩

/-- Settles O42: the run from the other surface, with the status lines as they are. -/
theorem surfaceIsNeverRead : Obligations.SurfaceIsNeverRead := by
  unfold Obligations.SurfaceIsNeverRead
  intro n s m t hrun
  obtain ⟨m', w, hrun', -, hw⟩ := run_overwrite m s.status hrun
  rw [hw rfl] at hrun'
  exact ⟨m', hrun'⟩

/-- Settles O43: the run from the other status lines, with the surface as it is. -/
theorem statusIsNeverRead : Obligations.StatusIsNeverRead := by
  unfold Obligations.StatusIsNeverRead
  intro n s v t hrun
  obtain ⟨m', w, hrun', hm, -⟩ := run_overwrite s.surf v hrun
  rw [hm rfl] at hrun'
  exact ⟨w, hrun'⟩

end Sys2Proof.Machine
end

section
/-! PROOFS. The invariant of 10_state.md section 9 at reset, and every step keeps it. -/

/-! ### Slots of the buffer and bytes from nibbles -/

namespace Sys2Proof

/-- The buffer as a list: a write sets the one slot, and for slot 7, which is none, it sets nothing (R122, log 11). -/
theorem Packet.bytes_setByte (p : Packet) (k : BitVec 3) (v : Byte) :
    (p.setByte k v).bytes = p.bytes.set k.toNat v := by
  have hk : ∀ k : BitVec 3, k = 0 ∨ k = 1 ∨ k = 2 ∨ k = 3 ∨ k = 4 ∨ k = 5 ∨ k = 6 ∨ k = 7 := by decide
  rcases hk k with rfl | rfl | rfl | rfl | rfl | rfl | rfl | rfl <;> rfl

theorem Packet.length_bytes (p : Packet) : p.bytes.length = 7 := rfl

theorem Packet.getElem_zero_bytes {k : Nat} (h : k < 7) : Packet.zero.bytes[k]? = some 0 := by
  interval_cases k <;> rfl

/-- Two nibbles more after whole bytes are one byte more. -/
theorem joinNibbleList_append_pair (l : List Nibble) (n0 n1 : Nibble) (h : l.length % 2 = 0) :
    joinNibbleList (l ++ [n0, n1]) = joinNibbleList l ++ [joinNibbles n0 n1] := joinNibbleList_append l [n0, n1] h

end Sys2Proof

namespace Sys2Proof.Machine

section
variable {s t u : State}

/-! ### States outside a nibble phase -/

/-- In `Idle` and `Halted` the invariant asks for the registers' ranges and the surface only. -/
theorem blockInv_of_at_rest (hst : s.st = .idle ∨ s.st = .halted) (hlaunch : LaunchOk s.cfg) (hbi : s.bi.toNat ≤ 6)
    (hack : s.ack = false) (hstatus : s.status.toNat ≤ 6) (hcnt : s.cnt ≤ max s.cfg.tSettle s.cfg.tAck)
    (hwf : s.surf.wf = true) (hin : ∀ c ∈ s.surf, c.1 < s.cfg.mappedSize) : BlockInv s := by
  have hnibble : s.st ≠ .awaitNibble := by rcases hst with h | h <;> simp [h]
  have hdone : s.st ≠ .done := by rcases hst with h | h <;> simp [h]
  exact {
    launch := hlaunch, bi_le := hbi, status_le := hstatus, cnt_le := hcnt, surf_wf := hwf, surf_in := hin
    ack_iff := by simp [hack, ackPhase, hnibble]
    slots_done := fun h => absurd h hnibble, slots_zero := fun h => absurd h hnibble
    status_eq := fun h => absurd h hnibble, status_second := fun h => absurd h hnibble
    nibble_count := fun h => absurd h hnibble, acc_low := fun h => absurd h hnibble
    acc_first := fun h => absurd h hnibble, acc_second := fun h => absurd h hnibble
    packet_done := fun h => absurd h hdone, receiver := fun _ => hst }

theorem BlockInv.ack_low_outside (h : BlockInv s) (hst : s.st ≠ .awaitNibble) : s.ack = false := by
  simp [h.ack_iff, ackPhase, hst]

/-- A state at rest with the registers and the surface of one that meets the invariant. -/
theorem BlockInv.at_rest (h : BlockInv s) (hst : t.st = .idle ∨ t.st = .halted) (hack : t.ack = false)
    (hcfg : t.cfg = s.cfg) (hbi : t.bi = s.bi) (hstatus : t.status = s.status) (hcnt : t.cnt = s.cnt)
    (hwf : t.surf.wf = true) (hin : ∀ c ∈ t.surf, c.1 < s.cfg.mappedSize) : BlockInv t :=
  blockInv_of_at_rest hst (hcfg ▸ h.launch) (hbi ▸ h.bi_le) hack (hstatus ▸ h.status_le)
    (by rw [hcnt, hcfg]; exact h.cnt_le) hwf (by rwa [hcfg])

theorem BlockInv.halt (h : BlockInv s) (hack : s.ack = false) : BlockInv (halt s) :=
  h.at_rest (.inr rfl) hack rfl rfl rfl rfl h.surf_wf h.surf_in

theorem BlockInv.applyRst (h : BlockInv s) : BlockInv (applyRst s) :=
  blockInv_of_at_rest (.inl rfl) h.launch (Nat.zero_le 6) rfl (Nat.zero_le 6) (Nat.zero_le _) h.surf_wf h.surf_in

/-- A command run from a state with the registers and the surface of `s`, with the sequencer at rest afterwards. -/
theorem BlockInv.exec (h : BlockInv s) (hst : s.st ≠ .awaitNibble) {i : Instr} {e : Event} {j : Inputs}
    (hexec : exec i { emit e s with inp := j } = .next u) {p : Phase} (hp : p = .idle ∨ p = .halted) :
    BlockInv { u with st := p } := by
  have hframe := exec_frame hexec
  have hwf : u.surf.wf = true := exec_surf_wf hexec h.surf_wf
  have hin : ∀ c ∈ u.surf, c.1 < s.cfg.mappedSize :=
    exec_surf_inside (s := { emit e s with inp := j }) hexec h.surf_in
  have hack : u.ack = false := by rw [hframe]; exact h.ack_low_outside hst
  refine h.at_rest (t := { u with st := p }) hp hack ?_ ?_ ?_ ?_ hwf hin
  all_goals
    rw [hframe]
    rfl

/-- The environment's levels stand in no clause of the invariant. -/
theorem BlockInv.nextLevels (h : BlockInv s) : BlockInv (nextLevels s) := by
  cases hs : s.script with
  | nil => rwa [nextLevels_nil s hs]
  | cons i rest =>
    rw [nextLevels_cons s i rest hs]
    exact { h with }

/-! ### The `Idle` poll -/

theorem BlockInv.pollIdle (h : BlockInv s) (hst : s.st = .idle) (hdeploy : s.cfg.deploy ≠ .relayReceiver) :
    BlockInv (pollIdle s) := by
  have hack : s.ack = false := h.ack_low_outside (by simp [hst])
  cases hcancel : s.inp.cancel with
  | true => exact pollIdle_of_cancel hcancel ▸ h.halt hack
  | false =>
    cases hstart : s.inp.start with
    | true => exact (pollIdle_of_no_start hcancel hstart).symm ▸ h
    | false =>
      rw [pollIdle_of_start hcancel hstart]
      exact {
        launch := h.launch, bi_le := Nat.zero_le 6, ack_iff := hack, status_le := h.status_le, cnt_le := h.cnt_le
        surf_wf := h.surf_wf, surf_in := h.surf_in, packet_done := nofun
        slots_done := fun _ k hk => absurd hk (Nat.not_lt_zero k)
        slots_zero := fun _ k _ hk => Packet.getElem_zero_bytes hk
        status_eq := fun _ hsub => by simp at hsub
        status_second := fun _ hni => by simp at hni
        nibble_count := fun _ => by simp [sampled]
        acc_low := fun _ hheld => by simp at hheld
        acc_first := fun _ hheld => by simp at hheld
        acc_second := fun _ hni => by simp at hni
        receiver := fun hrec => absurd hrec hdeploy }

theorem sampled_iff : sampled s = true ↔ s.sub ∈ [Sub.s5a, .s5b, .s5c, .s6] := List.contains_iff_mem

theorem BlockInv.ack_of_sub (h : BlockInv s) (hst : s.st = .awaitNibble) {sub : Sub} (hsub : s.sub = sub) :
    s.ack = (sub == .s5b || sub == .s5c) := by
  simp [h.ack_iff, ackPhase, hst, hsub]

/-! ### The steps of a nibble phase that only wait, drive `status` or move `ack` -/

/-- The step changes `sub` within one half of the nibble phase, before the sample or after it, and `cnt`, `ack`,
`status` and the history as the rules of `S1` to `S3` and `S5a` to `S5c` do: the bytes taken so far and the
accumulator stay. -/
theorem BlockInv.move_within_half (h : BlockInv s) (hst : s.st = .awaitNibble) {sub' : Sub} {cnt' : Nat} {ack' : Bool}
    {status' : BitVec 3} {history' : List Event}
    (hsub : sub' ∈ [Sub.s5a, .s5b, .s5c, .s6] ↔ s.sub ∈ [Sub.s5a, .s5b, .s5c, .s6])
    (hcnt : cnt' ≤ max s.cfg.tSettle s.cfg.tAck) (hack : ack' = (sub' == .s5b || sub' == .s5c))
    (hstatus : status' = s.bi ∨ status' = s.status ∧ sub' ∈ [Sub.s1, .s2, .s3])
    (hhistory : transactionNibbles history' = transactionNibbles s.history) :
    BlockInv { s with sub := sub', cnt := cnt', ack := ack', status := status', history := history' } := by
  have hsampled : sampled { s with
      sub := sub', cnt := cnt', ack := ack', status := status', history := history' } = sampled s := by
    rw [Bool.eq_iff_iff, sampled_iff, sampled_iff]
    exact hsub
  have hbefore (sub : Sub) : sub ∈ [Sub.s1, .s2, .s3, .s4] ↔ sub ∉ [Sub.s5a, .s5b, .s5c, .s6] := by
    cases sub <;> decide
  have hheld : (s.ni = 0 ∧ sub' ∈ [Sub.s5a, .s5b, .s5c, .s6]) ∨ (s.ni = 1 ∧ sub' ∈ [Sub.s1, .s2, .s3, .s4]) →
      (s.ni = 0 ∧ s.sub ∈ [Sub.s5a, .s5b, .s5c, .s6]) ∨ (s.ni = 1 ∧ s.sub ∈ [Sub.s1, .s2, .s3, .s4]) := by
    rw [hbefore, hbefore, hsub]
    exact id
  exact {
    launch := h.launch, bi_le := h.bi_le, cnt_le := hcnt, surf_wf := h.surf_wf, surf_in := h.surf_in
    receiver := h.receiver, slots_zero := h.slots_zero
    ack_iff := by simpa [ackPhase, hst] using hack
    slots_done := by simpa [hhistory] using h.slots_done
    status_le := by
      rcases hstatus with e | ⟨e, -⟩
      · exact e ▸ h.bi_le
      · exact e ▸ h.status_le
    status_eq := fun _ hin => by
      rcases hstatus with e | ⟨-, hnot⟩
      · exact e
      · revert hin hnot
        cases sub' <;> simp
    status_second := fun _ hni => by
      rcases hstatus with e | ⟨e, -⟩
      · exact e
      · exact e.trans (h.status_second hst hni)
    nibble_count := fun _ => by rw [hsampled, hhistory]; exact h.nibble_count hst
    acc_low := fun _ hh => h.acc_low hst (hheld hh)
    acc_first := fun _ hh => by rw [hhistory]; exact h.acc_first hst (hheld hh)
    acc_second := fun _ hni hs => by rw [hhistory]; exact h.acc_second hst hni (hsampled ▸ hs)
    packet_done := fun hd => by cases hst.symm.trans hd }

/-! ### The sample -/

/-- Before the sample the history holds as many nibbles as `bi` and `ni` say. -/
theorem BlockInv.nibble_count_before (h : BlockInv s) (hst : s.st = .awaitNibble) (hsub : s.sub = .s4) :
    (transactionNibbles s.history).length = 2 * s.bi.toNat + s.ni.toNat := by
  simpa [sampled, hsub] using h.nibble_count hst

theorem BlockInv.sampleNibble (h : BlockInv s) (hst : s.st = .awaitNibble) (hsub : s.sub = .s4) :
    BlockInv (sampleNibble s) := by
  have hcount := h.nibble_count_before hst hsub
  have hack : s.ack = false := h.ack_of_sub hst hsub
  have hhistory : transactionNibbles (Machine.sampleNibble s).history = transactionNibbles s.history ++ [s.inp.d] :=
    transactionNibbles_sample s.history s.bi s.ni s.inp.d
  exact {
    launch := h.launch, bi_le := h.bi_le, cnt_le := h.cnt_le, surf_wf := h.surf_wf, surf_in := h.surf_in
    receiver := h.receiver, slots_zero := h.slots_zero, status_le := h.status_le, status_second := h.status_second
    ack_iff := by simp [Machine.sampleNibble, hack, ackPhase]
    slots_done := fun _ k hk => by
      have hk' : k < s.bi.toNat := hk
      rw [hhistory, joinNibbleList_getElem_append _ _ _ (by omega)]
      exact h.slots_done hst k hk
    status_eq := fun _ _ => h.status_eq hst (by simp [hsub])
    nibble_count := fun _ => by
      rw [hhistory, List.length_append, hcount]
      rfl
    acc_low := fun _ hheld => by
      have hni : s.ni = 0 := by simpa [Machine.sampleNibble] using hheld
      have hd := s.inp.d.isLt
      simp [Machine.sampleNibble, hni, accumulate]
      omega
    acc_first := fun _ hheld => by
      have hni : s.ni = 0 := by simpa [Machine.sampleNibble] using hheld
      exact ⟨_, _, hhistory, by simp [Machine.sampleNibble, hni, accumulate]⟩
    acc_second := fun _ hni _ => by
      have hni : s.ni = 1 := hni
      obtain ⟨earlier, n0, hn, hacc⟩ := h.acc_first hst (.inr ⟨hni, by simp [hsub]⟩)
      refine ⟨earlier, n0, s.inp.d, by rw [hhistory, hn]; simp, ?_⟩
      have hboth := accumulate_both 0 n0 s.inp.d
      rw [accumulate_first, ← hacc] at hboth
      simpa [Machine.sampleNibble, hni] using hboth
    packet_done := fun hd => by cases hst.symm.trans hd }

/-! ### The end of a nibble phase -/

/-- After nibble 1 the write of slot `bi` makes the slots up to `bi` the bytes of the nibbles sampled. -/
theorem BlockInv.slots_after_write (h : BlockInv s) (hst : s.st = .awaitNibble) (hsub : s.sub = .s6) (hni : s.ni = 1)
    {k : Nat} (hk : k ≤ s.bi.toNat) :
    (s.pkt.setByte s.bi s.acc).bytes[k]? = (joinNibbleList (transactionNibbles s.history))[k]? := by
  have hbi := h.bi_le
  have hcount := h.nibble_count hst
  obtain ⟨earlier, n0, n1, hn, hacc⟩ := h.acc_second hst hni (by simp [sampled, hsub])
  have hearlier : earlier.length = 2 * s.bi.toNat := by
    simp [hn, hni, sampled, hsub] at hcount
    omega
  rw [Packet.bytes_setByte]
  rcases Nat.lt_or_eq_of_le hk with hlt | rfl
  · rw [List.getElem?_set_ne (by omega)]
    exact h.slots_done hst k hlt
  · rw [List.getElem?_set_self (by rw [Packet.length_bytes]; omega), hn,
      joinNibbleList_append_pair earlier n0 n1 (by omega),
      List.getElem?_append_right (by rw [joinNibbleList_length]; omega), joinNibbleList_length, hearlier, hacc]
    simp

theorem BlockInv.nextNibble (h : BlockInv s) (hst : s.st = .awaitNibble) (hsub : s.sub = .s6) (hni : s.ni = 0) :
    BlockInv { s with ni := 1, sub := .s1 } := by
  have hcount := h.nibble_count hst
  have hheld : (s.ni = 0 ∧ s.sub ∈ [Sub.s5a, .s5b, .s5c, .s6]) ∨ (s.ni = 1 ∧ s.sub ∈ [Sub.s1, .s2, .s3, .s4]) :=
    .inl ⟨hni, by simp [hsub]⟩
  exact {
    launch := h.launch, bi_le := h.bi_le, cnt_le := h.cnt_le, surf_wf := h.surf_wf, surf_in := h.surf_in
    receiver := h.receiver, slots_done := h.slots_done, slots_zero := h.slots_zero, status_le := h.status_le
    ack_iff := (h.ack_of_sub hst hsub).trans (Bool.and_false _).symm
    status_eq := fun _ hin => by simp at hin
    status_second := fun _ _ => h.status_eq hst (by simp [hsub])
    nibble_count := fun _ => by simpa [hni, sampled, hsub] using hcount
    acc_low := fun _ _ => h.acc_low hst hheld
    acc_first := fun _ _ => h.acc_first hst hheld
    acc_second := fun _ _ hs => by simp [sampled] at hs
    packet_done := fun hd => by cases hst.symm.trans hd }

theorem BlockInv.nextByte (h : BlockInv s) (hst : s.st = .awaitNibble) (hsub : s.sub = .s6) (hni : s.ni = 1)
    (hbi : s.bi.toNat < 6) :
    BlockInv { s with pkt := s.pkt.setByte s.bi s.acc, bi := s.bi + 1, ni := 0, sub := .s1 } := by
  have hcount := h.nibble_count hst
  have hrise := bi_add_one_toNat hbi
  exact {
    launch := h.launch, cnt_le := h.cnt_le, surf_wf := h.surf_wf, surf_in := h.surf_in, receiver := h.receiver
    status_le := h.status_le
    bi_le := by simp only [hrise]; omega
    ack_iff := (h.ack_of_sub hst hsub).trans (Bool.and_false _).symm
    slots_done := fun _ k hk => h.slots_after_write hst hsub hni (by simp only [hrise] at hk; omega)
    slots_zero := fun _ k hk hk7 => by
      simp only [hrise] at hk
      simp only [Packet.bytes_setByte]
      rw [List.getElem?_set_ne (by omega)]
      exact h.slots_zero hst k (by omega) hk7
    status_eq := fun _ hin => by simp at hin
    status_second := fun _ hne => by simp at hne
    nibble_count := fun _ => by
      simp [hni, sampled, hsub] at hcount
      simp only [hrise, hcount, sampled]
      simp
      omega
    acc_low := fun _ hheld => by simp at hheld
    acc_first := fun _ hheld => by simp at hheld
    acc_second := fun _ hne => by simp at hne
    packet_done := fun hd => by cases hst.symm.trans hd }

theorem BlockInv.lastByte (h : BlockInv s) (hst : s.st = .awaitNibble) (hsub : s.sub = .s6) (hni : s.ni = 1)
    (hbi : 6 ≤ s.bi.toNat) : BlockInv { s with pkt := s.pkt.setByte s.bi s.acc, st := .done } := by
  have hbi : s.bi.toNat = 6 := by have := h.bi_le; omega
  have hcount := h.nibble_count hst
  have hlength : (joinNibbleList (transactionNibbles s.history)).length = 7 := by
    rw [joinNibbleList_length, hcount]
    simp [hbi, hni, sampled, hsub]
  exact {
    launch := h.launch, bi_le := h.bi_le, cnt_le := h.cnt_le, surf_wf := h.surf_wf, surf_in := h.surf_in
    status_le := h.status_le
    ack_iff := h.ack_of_sub hst hsub
    slots_done := nofun, slots_zero := nofun, status_eq := nofun, status_second := nofun, nibble_count := nofun
    acc_low := nofun, acc_first := nofun, acc_second := nofun
    packet_done := fun _ => by
      refine List.ext_getElem? fun k => ?_
      by_cases hk : k ≤ 6
      · exact h.slots_after_write hst hsub hni (by omega)
      · rw [List.getElem?_eq_none (by rw [Packet.length_bytes]; omega)]
        exact (List.getElem?_eq_none (hlength.le.trans (by omega))).symm
    receiver := fun hrec => by rcases h.receiver hrec with e | e <;> simp [hst] at e }

/-! ### Every move -/

theorem BlockInv.nibbleMove (h : BlockInv s) (hst : s.st = .awaitNibble) (hmove : NibbleMove s t) : BlockInv t := by
  have hstatus (hsub : s.sub ∈ [Sub.s4, .s5a, .s5b, .s5c, .s6]) := h.status_eq hst hsub
  cases hmove with
  | halts hsub _ => exact h.halt (by rcases hsub with e | e <;> exact h.ack_of_sub hst e)
  | waits _ => exact h
  | clockHigh hsub =>
    exact h.move_within_half hst (by simp [hsub]) (le_max_left _ _) ((h.ack_of_sub hst hsub).trans rfl)
      (.inr ⟨rfl, by simp⟩) rfl
  | counts hsub _ =>
    have hcnt : s.cnt - 1 ≤ max s.cfg.tSettle s.cfg.tAck := (Nat.sub_le _ _).trans h.cnt_le
    refine h.move_within_half hst Iff.rfl hcnt (h.ack_of_sub hst rfl) ?_ rfl
    rcases hsub with e | e
    · exact .inr ⟨rfl, by simp [e]⟩
    · exact .inl (hstatus (by simp [e]))
  | settles hsub _ =>
    exact h.move_within_half hst (by simp [hsub]) h.cnt_le ((h.ack_of_sub hst hsub).trans rfl) (.inr ⟨rfl, by simp⟩) rfl
  | drives hsub =>
    exact h.move_within_half hst (by simp [hsub]) h.cnt_le ((h.ack_of_sub hst hsub).trans rfl) (.inl rfl) (by simp)
  | samples hsub => exact h.sampleNibble hst hsub
  | ackRises hsub =>
    exact h.move_within_half hst (by simp [hsub]) (le_max_right _ _) (by simp) (.inl (hstatus (by simp [hsub])))
      (by simp)
  | ackHeld hsub _ =>
    exact h.move_within_half hst (by simp [hsub]) h.cnt_le ((h.ack_of_sub hst hsub).trans rfl)
      (.inl (hstatus (by simp [hsub]))) rfl
  | ackFalls hsub =>
    exact h.move_within_half hst (by simp [hsub]) h.cnt_le (by simp) (.inl (hstatus (by simp [hsub]))) (by simp)
  | nextNibble hsub _ hni => exact h.nextNibble hst hsub hni
  | nextByte hsub _ hni hbi => exact h.nextByte hst hsub hni hbi
  | lastByte hsub _ hni hbi => exact h.lastByte hst hsub hni hbi

theorem BlockInv.blockMove (h : BlockInv s) (hmove : BlockMove s t) : BlockInv t := by
  cases hmove with
  | reset _ => exact h.applyRst
  | stays _ _ => exact h
  | receiverHalts _ _ hdeploy _ _ _ =>
    exact h.halt (h.ack_low_outside (by rcases h.receiver hdeploy with e | e <;> simp [e]))
  | receiverRuns _ hst hdeploy b _ _ hexec =>
    have hidle : s.st = .idle := (h.receiver hdeploy).resolve_right hst
    have hframe := exec_frame hexec
    have hst' : t.st = .idle := by rw [hframe]; exact hidle
    have hinv : BlockInv { t with st := t.st } := h.exec (by simp [hidle]) hexec (.inl hst')
    exact hinv
  | poll _ hdeploy hst => exact h.pollIdle hst hdeploy
  | nibble _ _ hst => exact h.nibbleMove hst (nibbleMove_nibbleStep s)
  | dispatchRuns _ hst _ hexec => exact h.exec (by simp [hst]) hexec (.inl rfl)
  | dispatchShows _ hst _ =>
    exact h.at_rest (.inl rfl) (h.ack_low_outside (by simp [hst])) rfl rfl rfl rfl h.surf_wf h.surf_in

end

/-! ### The statements, settled -/

/-- Settles O49: power-up is at rest, every register is 0 and no surface byte is written. -/
theorem invariantAtReset : Obligations.InvariantAtReset := by
  unfold Obligations.InvariantAtReset
  have hpower (c : Config) (hc : LaunchOk c) : BlockInv (State.powerUp c) :=
    blockInv_of_at_rest (.inl rfl) hc (Nat.zero_le 6) rfl (Nat.zero_le 6) (Nat.zero_le _) rfl nofun
  exact ⟨hpower, hpower Config.reference (by decide)⟩

/-- Settles O50: the block's move keeps the invariant, whichever it is, and the environment's move has no part in it. -/
theorem invariantKeptByEveryStep : Obligations.InvariantKeptByEveryStep := by
  unfold Obligations.InvariantKeptByEveryStep
  intro s t hinv hstep
  obtain ⟨-, u, hmove, rfl⟩ := step_eq_next_move.1 hstep
  exact (hinv.blockMove hmove).nextLevels

end Sys2Proof.Machine
end

section
/-! PROOFS. How many steps a nibble phase takes (60_exceptions.md section 2, 70_reset_and_hazards.md section 5). One
measure serves both bounds: the steps that are left of the phase if the lines let none of them wait. -/

namespace Sys2Proof.Machine

/-- The steps from `s` to the end of its nibble phase, the last one included, where the clock is never waited for
(R104 to R122). -/
def stepsLeft (s : State) : Nat :=
  match s.sub with
  | .s1 => s.cfg.tSettle + s.cfg.tAck + 8
  | .s2 => s.cnt + s.cfg.tAck + 7
  | .s3 => s.cfg.tAck + 6
  | .s4 => s.cfg.tAck + 5
  | .s5a => s.cfg.tAck + 4
  | .s5b => s.cnt + 3
  | .s5c => 2
  | .s6 => 1

section
variable {s t u : State} {n k : Nat}

theorem stepsLeft_nextLevels : stepsLeft (nextLevels s) = stepsLeft s := by simp [stepsLeft]

/-- One step is left in `S6` only. -/
theorem sub_eq_s6_of_stepsLeft (h : stepsLeft s = 1) : s.sub = .s6 := by
  cases hsub : s.sub with
  | s6 => rfl
  | _ => simp only [stepsLeft, hsub] at h; omega

theorem sub_ne_s6_of_stepsLeft (h : 1 < stepsLeft s) : s.sub ≠ .s6 := fun hsub => by
  simp [stepsLeft, hsub] at h

/-! ### One step before `S6` -/

/-- Where more than one step is left, the step halts or waits in `S1`, or it is one step less in the same phase. -/
theorem NibbleMove.before_s6 (h : NibbleMove s t) (hleft : 1 < stepsLeft s) :
    (s.sub = .s1 ∧ (t = halt s ∨ t = s)) ∨
    (t.st = s.st ∧ t.bi = s.bi ∧ t.ni = s.ni ∧ t.pkt = s.pkt ∧ stepsLeft s = stepsLeft t + 1) := by
  have hs6 := sub_ne_s6_of_stepsLeft hleft
  cases h with
  | halts hsub _ => exact .inl ⟨hsub.resolve_right hs6, .inl rfl⟩
  | waits hsub => exact .inl ⟨hsub.resolve_right hs6, .inr rfl⟩
  | clockHigh hsub => exact .inr ⟨rfl, rfl, rfl, rfl, by simp [stepsLeft, hsub]⟩
  | counts hsub hcnt =>
    exact .inr ⟨rfl, rfl, rfl, rfl, by rcases hsub with hsub | hsub <;> simp [stepsLeft, hsub] <;> omega⟩
  | settles hsub hcnt => exact .inr ⟨rfl, rfl, rfl, rfl, by simp [stepsLeft, hsub, hcnt]⟩
  | drives hsub => exact .inr ⟨rfl, rfl, rfl, rfl, by simp [stepsLeft, hsub, driveStatus]⟩
  | samples hsub => exact .inr ⟨rfl, rfl, rfl, rfl, by simp [stepsLeft, hsub, sampleNibble]⟩
  | ackRises hsub => exact .inr ⟨rfl, rfl, rfl, rfl, by simp [stepsLeft, hsub, ackHigh]⟩
  | ackHeld hsub hcnt => exact .inr ⟨rfl, rfl, rfl, rfl, by simp [stepsLeft, hsub, hcnt]⟩
  | ackFalls hsub => exact .inr ⟨rfl, rfl, rfl, rfl, by simp [stepsLeft, hsub, ackLow]⟩
  | nextNibble hsub _ _ => exact absurd hsub hs6
  | nextByte hsub _ _ _ => exact absurd hsub hs6
  | lastByte hsub _ _ _ => exact absurd hsub hs6

/-- So the step, whatever the lines read, leaves the indices and the buffer, and halts or has at most one step less. -/
theorem NibbleMove.stays_in_phase (h : NibbleMove s t) (hleft : 1 < stepsLeft s) :
    t.bi = s.bi ∧ t.ni = s.ni ∧ t.pkt = s.pkt ∧ (t.st = .halted ∨ t.st = s.st ∧ stepsLeft s ≤ stepsLeft t + 1) := by
  rcases h.before_s6 hleft with ⟨-, rfl | rfl⟩ | ⟨hst, hbi, hni, hpkt, hless⟩
  · exact ⟨rfl, rfl, rfl, .inl rfl⟩
  · exact ⟨rfl, rfl, rfl, .inr ⟨rfl, Nat.le_succ _⟩⟩
  · exact ⟨hbi, hni, hpkt, .inr ⟨hst, hless.le⟩⟩

/-! ### The lower bound, on any levels without `rst` -/

theorem BlockMove.unique (h : BlockMove s t) (h' : BlockMove s u) : t = u := by
  simpa using h.rxStep_eq.symm.trans h'.rxStep_eq

theorem step_nibble (hrst : s.inp.rst = false) (hdeploy : s.cfg.deploy ≠ .relayReceiver) (hst : s.st = .awaitNibble)
    (h : step s = .next t) : t = nextLevels (nibbleStep s) := by
  obtain ⟨-, u, hmove, rfl⟩ := step_eq_next_move.1 h
  rw [hmove.unique (.nibble hrst hdeploy hst)]

theorem step_halted (hrst : s.inp.rst = false) (hst : s.st = .halted) (h : step s = .next t) : t = nextLevels s := by
  obtain ⟨-, u, hmove, rfl⟩ := step_eq_next_move.1 h
  rw [hmove.unique (.stays hrst (.inl hst))]

/-- Without `rst` a run of fewer steps than are left stays in the phase, or halts, and leaves the indices and the
buffer. -/
theorem run_before_phase_end (hrst : ∀ i ∈ levels s, i.rst = false)
    (hs : s.st = .halted ∨ s.cfg.deploy ≠ .relayReceiver ∧ s.st = .awaitNibble ∧ k < stepsLeft s)
    (hrun : run k s = .next t) :
    t.bi = s.bi ∧ t.ni = s.ni ∧ t.pkt = s.pkt ∧ (t.st = .awaitNibble ∨ t.st = .halted) := by
  induction k generalizing s with
  | zero =>
    cases hrun
    exact ⟨rfl, rfl, rfl, hs.elim .inr fun h => .inl h.2.1⟩
  | succ k ih =>
    obtain ⟨s', hstep, hrun⟩ := onNext_eq_next.1 hrun
    have hnow := hrst s.inp List.mem_cons_self
    rcases hs with hst | ⟨hdeploy, hst, hk⟩
    · obtain rfl := step_halted hnow hst hstep
      simpa using ih (fun i hi => hrst i (levels_nextLevels_subset s hi)) (.inl (by simpa using hst)) hrun
    · obtain rfl := step_nibble hnow hdeploy hst hstep
      have hlevels : ∀ i ∈ levels (nextLevels (nibbleStep s)), i.rst = false := fun i hi =>
        hrst i (by simpa [levels] using levels_nextLevels_subset _ hi)
      obtain ⟨hbi, hni, hpkt, hnext⟩ := (nibbleMove_nibbleStep s).stays_in_phase (by omega)
      have hgoes : (nextLevels (nibbleStep s)).st = .halted ∨ (nextLevels (nibbleStep s)).cfg.deploy ≠ .relayReceiver ∧
          (nextLevels (nibbleStep s)).st = .awaitNibble ∧ k < stepsLeft (nextLevels (nibbleStep s)) := by
        simp only [nextLevels_st, nextLevels_cfg, nibbleStep_cfg, stepsLeft_nextLevels]
        exact hnext.imp_right fun ⟨hst', hless⟩ => ⟨hdeploy, hst'.trans hst, by omega⟩
      simpa [hbi, hni, hpkt] using ih hlevels hgoes hrun

/-! ### With `cancel` held: the exact count from `S2` -/

/-- What a nibble phase of `s` with the nibble `d` has recorded when it comes to a sub-phase after `S1` (R240). -/
def eventsBefore (s : State) (d : Nibble) : Sub → List Event
  | .s1 | .s2 | .s3 => []
  | .s4 => [.statusWrite s.bi]
  | .s5a => [.statusWrite s.bi, .sample s.bi s.ni d]
  | .s5b | .s5c => [.statusWrite s.bi, .sample s.bi s.ni d, .ackRise]
  | .s6 => [.statusWrite s.bi, .sample s.bi s.ni d, .ackRise, .ackFall]

/-- `t` is in the nibble phase of `s`, after `S1`. -/
structure InPhaseOf (s t : State) : Prop where
  st : t.st = .awaitNibble
  past_s1 : t.sub ≠ .s1
  bi : t.bi = s.bi
  ni : t.ni = s.ni
  surf : t.surf = s.surf
  cfg : t.cfg = s.cfg
  history : ∃ d, t.history = s.history ++ eventsBefore s d t.sub

theorem InPhaseOf.nextLevels (h : InPhaseOf s t) : InPhaseOf s (nextLevels t) := by
  obtain ⟨hst, hs1, hbi, hni, hsurf, hcfg, hhistory⟩ := h
  exact ⟨by simpa, by simpa, by simpa, by simpa, by simpa, by simpa, by simpa⟩

/-- What a step before `S6` adds to the history is what the next sub-phase has behind it. -/
theorem NibbleMove.history_before_s6 (h : NibbleMove t u) (hs1 : t.sub ≠ .s1) (hs6 : t.sub ≠ .s6) (hbi : t.bi = s.bi)
    (hni : t.ni = s.ni) {d : Nibble} (hd : t.history = s.history ++ eventsBefore s d t.sub) :
    u.sub ≠ .s1 ∧ ∃ d', u.history = s.history ++ eventsBefore s d' u.sub := by
  cases h with
  | halts hsub _ => exact absurd hsub (by simp [hs1, hs6])
  | waits hsub => exact absurd hsub (by simp [hs1, hs6])
  | clockHigh hsub => exact absurd hsub hs1
  | counts _ _ => exact ⟨hs1, d, hd⟩
  | settles hsub _ => exact ⟨nofun, d, by simpa [hsub, eventsBefore] using hd⟩
  | drives hsub => exact ⟨nofun, d, by simp [driveStatus, hd, hsub, eventsBefore, hbi]⟩
  | samples hsub => exact ⟨nofun, t.inp.d, by simp [sampleNibble, hd, hsub, eventsBefore, hbi, hni]⟩
  | ackRises hsub => exact ⟨nofun, d, by simp [ackHigh, hd, hsub, eventsBefore]⟩
  | ackHeld hsub _ => exact ⟨nofun, d, by simpa [hsub, eventsBefore] using hd⟩
  | ackFalls hsub => exact ⟨nofun, d, by simp [ackLow, hd, hsub, eventsBefore]⟩
  | nextNibble hsub _ _ => exact absurd hsub hs6
  | nextByte hsub _ _ _ => exact absurd hsub hs6
  | lastByte hsub _ _ _ => exact absurd hsub hs6

/-- After `S1` nothing is waited for, so each step before `S6` is exactly one step less. -/
theorem InPhaseOf.nibbleMove (h : InPhaseOf s t) (hleft : 1 < stepsLeft t) (hmove : NibbleMove t u) :
    InPhaseOf s u ∧ stepsLeft t = stepsLeft u + 1 := by
  obtain ⟨hst, hs1, hbi, hni, hsurf, hcfg, d, hd⟩ := h
  obtain ⟨hst', hbi', hni', -, hless⟩ := (hmove.before_s6 hleft).resolve_left fun hwaits => hs1 hwaits.1
  obtain ⟨hs1', hhistory'⟩ := hmove.history_before_s6 hs1 (sub_ne_s6_of_stepsLeft hleft) hbi hni hd
  have hsurf' : u.surf = t.surf := by rw [hmove.frame]
  have hcfg' : u.cfg = t.cfg := by rw [hmove.frame]
  exact ⟨⟨hst'.trans hst, hs1', hbi'.trans hbi, hni'.trans hni, hsurf'.trans hsurf, hcfg'.trans hcfg, hhistory'⟩, hless⟩

/-- `rst` is low and `cancel` high at every level to come. -/
def CancelHeld (s : State) : Prop := ∀ i ∈ levels s, i.rst = false ∧ i.cancel = true

theorem CancelHeld.nextLevels_nibbleStep (h : CancelHeld s) : CancelHeld (nextLevels (nibbleStep s)) := fun i hi =>
  h i (by simpa [levels] using levels_nextLevels_subset _ hi)

/-- A run of fewer steps than are left comes to the state of the phase with so many steps less. -/
theorem InPhaseOf.run {s₀ : State} (h : InPhaseOf s₀ s) (hlaunch : LaunchOk s₀.cfg)
    (hdeploy : s₀.cfg.deploy ≠ .relayReceiver) (hlevels : CancelHeld s) (hk : k < stepsLeft s) :
    ∃ t, run k s = .next t ∧ InPhaseOf s₀ t ∧ CancelHeld t ∧ stepsLeft t + k = stepsLeft s := by
  induction k generalizing s with
  | zero => exact ⟨s, rfl, h, hlevels, rfl⟩
  | succ k ih =>
    have hstep : step s = .next (Machine.nextLevels (nibbleStep s)) :=
      step_of_move (h.cfg ▸ hlaunch) (.nibble (hlevels s.inp List.mem_cons_self).1 (h.cfg ▸ hdeploy) h.st)
    obtain ⟨hphase, hleft⟩ := h.nibbleMove (by omega) (nibbleMove_nibbleStep s)
    obtain ⟨t, hrun, hphase', hlevels', hleft'⟩ :=
      ih hphase.nextLevels hlevels.nextLevels_nibbleStep (by rw [stepsLeft_nextLevels]; omega)
    rw [stepsLeft_nextLevels] at hleft'
    exact ⟨t, (run_succ_of_step hstep).trans hrun, hphase', hlevels', by omega⟩

end

/-! ### The statements, settled -/

/-- Settles O53: in `S1` at least `T_SETTLE + T_ACK + 8` steps are left. -/
theorem nibblePhaseTakesAtLeastItsSteps : Obligations.NibblePhaseTakesAtLeastItsSteps := by
  unfold Obligations.NibblePhaseTakesAtLeastItsSteps
  intro k s t hdeploy hst hsub hrst hk hrun
  exact run_before_phase_end hrst (.inr ⟨hdeploy, hst, by simpa [stepsLeft, hsub] using hk⟩) hrun

/-- Settles O40: at entry to `S2` exactly `T_SETTLE + T_ACK + 7` steps are left; the last of them is that of `S6`, which
reads `cancel`. -/
theorem cancelHaltsWithinANibble : Obligations.CancelHaltsWithinANibble := by
  unfold Obligations.CancelHaltsWithinANibble
  intro s hin hcnt hlevels
  obtain ⟨⟨hlaunch, -, hdeploy⟩, hst, hsub⟩ := hin
  have hleft : stepsLeft s = s.cfg.tSettle + s.cfg.tAck + 7 := by simp [stepsLeft, hsub, hcnt]
  have hphase : InPhaseOf s s := ⟨hst, by simp [hsub], rfl, rfl, rfl, rfl, 0, by simp [hsub, eventsBefore]⟩
  refine ⟨fun k hk => ?_, ?_⟩
  · obtain ⟨t, hrun, hphase', -, -⟩ := hphase.run (k := k) hlaunch hdeploy hlevels (by omega)
    exact ⟨t, hrun, hphase'.st⟩
  · obtain ⟨t, hrun, hphase', hlevels', hlast⟩ :=
      hphase.run (k := s.cfg.tSettle + s.cfg.tAck + 6) hlaunch hdeploy hlevels (by omega)
    obtain ⟨hst', -, hbi, hni, hsurf, hcfg, d, hhistory⟩ := hphase'
    obtain ⟨hrst', hcancel'⟩ := hlevels' t.inp List.mem_cons_self
    have hs6 : t.sub = .s6 := sub_eq_s6_of_stepsLeft (by omega)
    have hin' : InSub t .s6 := ⟨⟨hcfg ▸ hlaunch, hrst', hcfg ▸ hdeploy⟩, hst', hs6⟩
    have hstep := step_of_s6 hin'
    rw [waitClockLow_of_cancel hcancel'] at hstep
    refine ⟨_, d, run_succ_of_run hrun hstep, by simp, by simpa using hsurf, ?_⟩
    simp [hhistory, hs6, hst', hbi, hni, eventsBefore]

end Sys2Proof.Machine
end

section
/-! PROOFS. A nibble phase and a whole transaction on the levels of a transmitter that keeps its obligations
(40_handshake_decoder.md section 7, 41_packet_assembler.md, 70_reset_and_hazards.md section 3). The levels are read in
segments; `Reaches` says what one segment does, and segments follow one another. -/

namespace Sys2Proof.Machine

/-- The block reads the levels `l` one a step and goes from `s` to `t`, whatever levels come after them. What `s` and
`t` themselves hold as levels does not matter. -/
def Reaches (l : List Inputs) (s t : State) : Prop :=
  ∀ rest, rest ≠ [] → run l.length (withLevels (l ++ rest) s) = .next (withLevels rest t)

/-- The block is in a nibble phase and takes its steps as long as `rst` is low. -/
structure Awaiting (s : State) : Prop where
  launch : LaunchOk s.cfg
  deploy : s.cfg.deploy ≠ .relayReceiver
  st : s.st = .awaitNibble

section
variable {s t u : State} {i : Inputs} {l l' : List Inputs} {n : Nibble}

/-! ### Levels -/

theorem withLevels_levels (s : State) : withLevels (levels s) s = s := rfl

theorem levels_withLevels (h : l ≠ []) : levels (withLevels l s) = l := by
  obtain ⟨i, rest, rfl⟩ := List.exists_cons_of_ne_nil h
  rfl

/-- A list of given length cut in two. -/
theorem exists_append_of_length {m k : Nat} (h : l.length = m + k) :
    ∃ l₁ l₂, l = l₁ ++ l₂ ∧ l₁.length = m ∧ l₂.length = k :=
  ⟨l.take m, l.drop m, (List.take_append_drop m l).symm, by simp; omega, by simp; omega⟩

/-! ### Segments -/

theorem Reaches.nil (s : State) : Reaches [] s s := fun _ _ => rfl

theorem Reaches.append (h : Reaches l s t) (h' : Reaches l' t u) : Reaches (l ++ l') s u := by
  intro rest hrest
  rw [List.length_append, run_add, List.append_assoc, h (l' ++ rest) (by simp [hrest]), onNext_next, h' rest hrest]

theorem Reaches.cons (h : Reaches [i] s t) (h' : Reaches l t u) : Reaches (i :: l) s u := h.append h'

/-- Levels each of which leaves the block as it is. -/
theorem reaches_of_stays (h : ∀ i ∈ l, Reaches [i] s s) : Reaches l s s := by
  induction l with
  | nil => exact .nil s
  | cons i l ih =>
    obtain ⟨hi, hl⟩ := List.forall_mem_cons.1 h
    exact hi.cons (ih hl)

/-- One level: a move that neither reads nor changes the script. -/
theorem reaches_of_blockMove (hlaunch : LaunchOk s.cfg)
    (h : ∀ r, BlockMove { s with inp := i, script := r } { t with inp := i, script := r }) : Reaches [i] s t := by
  intro rest hrest
  obtain ⟨j, r, rfl⟩ := List.exists_cons_of_ne_nil hrest
  exact run_succ_of_step (n := 0) (step_of_move (by exact hlaunch) (h (j :: r)))

theorem Awaiting.reaches (h : Awaiting s) (hrst : i.rst = false)
    (hnibble : ∀ r, nibbleStep { s with inp := i, script := r } = { t with inp := i, script := r }) : Reaches [i] s t :=
  reaches_of_blockMove h.launch fun r => hnibble r ▸ .nibble hrst h.deploy h.st

/-! ### The segments of a nibble phase -/

/-- The clock low in `S1`. -/
theorem Awaiting.reaches_clock_low (h : Awaiting s) (hsub : s.sub = .s1) (hi : Undisturbed i) (hlow : i.pclk = false) :
    Reaches [i] s s :=
  h.reaches hi.2 fun r => by
    rw [nibbleStep_of_s1 (by exact hsub)]
    exact waitClockHigh_of_low hi.1 hlow

/-- The clock still high in `S6`. -/
theorem Awaiting.reaches_clock_high (h : Awaiting s) (hsub : s.sub = .s6) (hi : Undisturbed i) (hhigh : i.pclk = true) :
    Reaches [i] s s :=
  h.reaches hi.2 fun r => by
    rw [nibbleStep_of_s6 (by exact hsub)]
    exact waitClockLow_of_high hi.1 hhigh

theorem advance_withInputs (s : State) (i : Inputs) (r : List Inputs) :
    advance { s with inp := i, script := r } = { advance s with inp := i, script := r } := by
  by_cases hni : s.ni = 0#1
  · simp [advance, hni]
  · by_cases hbi : s.bi < 6#3 <;> simp [advance, hni, hbi]

/-- The clock low in `S6`. -/
theorem Awaiting.reaches_advance (h : Awaiting s) (hsub : s.sub = .s6) (hi : Undisturbed i) (hlow : i.pclk = false) :
    Reaches [i] s (advance s) :=
  h.reaches hi.2 fun r => by
    rw [nibbleStep_of_s6 (by exact hsub), waitClockLow_of_low (by exact hi.1) (by exact hlow)]
    exact advance_withInputs s i r

/-- Both waits count down in the same way, whatever the lines read (R106, R116). -/
theorem Awaiting.reaches_after_wait (h : Awaiting s) {sub' : Sub}
    (hw : s.sub = .s2 ∧ sub' = .s3 ∨ s.sub = .s5b ∧ sub' = .s5c) (hrst : ∀ i ∈ l, i.rst = false)
    (hl : l.length = s.cnt + 1) : Reaches l s { s with sub := sub', cnt := 0 } := by
  induction l generalizing s with
  | nil => simp at hl
  | cons i l ih =>
    obtain ⟨hi, hrest⟩ := List.forall_mem_cons.1 hrst
    simp only [List.length_cons, Nat.add_right_cancel_iff] at hl
    by_cases hc : s.cnt = 0
    · have hnil : l = [] := List.length_eq_zero_iff.1 (hl.trans hc)
      subst hnil
      refine h.reaches hi fun r => ?_
      rcases hw with ⟨hsub, rfl⟩ | ⟨hsub, rfl⟩
      · rw [nibbleStep_of_s2 (by exact hsub), settle_of_zero (by exact hc), hc]
      · rw [nibbleStep_of_s5b (by exact hsub), ackHold_of_zero (by exact hc), hc]
    · have hfirst : Reaches [i] s { s with cnt := s.cnt - 1 } := by
        refine h.reaches hi fun r => ?_
        rcases hw with ⟨hsub, -⟩ | ⟨hsub, -⟩
        · rw [nibbleStep_of_s2 (by exact hsub), settle_of_pos (by exact hc)]
        · rw [nibbleStep_of_s5b (by exact hsub), ackHold_of_pos (by exact hc)]
      exact hfirst.cons (ih (s := { s with cnt := s.cnt - 1 }) ⟨h.launch, h.deploy, h.st⟩ hw hrest (by simp; omega))

/-- The state at entry to each sub-phase of the phase that starts at `s`, in `S1`, and takes nibble `n` (R104 to
R118). -/
def phaseAt (s : State) (n : Nibble) : Sub → State
  | .s1 => s
  | .s2 => { s with sub := .s2, cnt := s.cfg.tSettle }
  | .s3 => { s with sub := .s3, cnt := 0 }
  | .s4 => { s with sub := .s4, cnt := 0, status := s.bi, history := s.history ++ eventsBefore s n .s4 }
  | .s5a =>
    { s with
      sub := .s5a, cnt := 0, status := s.bi, acc := accumulate s.acc s.ni n
      history := s.history ++ eventsBefore s n .s5a }
  | .s5b =>
    { s with
      sub := .s5b, cnt := s.cfg.tAck, status := s.bi, acc := accumulate s.acc s.ni n, ack := true
      history := s.history ++ eventsBefore s n .s5b }
  | .s5c =>
    { s with
      sub := .s5c, cnt := 0, status := s.bi, acc := accumulate s.acc s.ni n, ack := true
      history := s.history ++ eventsBefore s n .s5c }
  | .s6 =>
    { s with
      sub := .s6, cnt := 0, status := s.bi, acc := accumulate s.acc s.ni n, ack := false
      history := s.history ++ eventsBefore s n .s6 }

theorem Awaiting.phaseAt (h : Awaiting s) (n : Nibble) (sub : Sub) : Awaiting (phaseAt s n sub) := by
  cases sub <;> exact ⟨h.launch, h.deploy, h.st⟩

/-- The clock high in `S1`. -/
theorem Awaiting.reaches_s2 (h : Awaiting s) (hsub : s.sub = .s1) (hi : Undisturbed i) (hhigh : i.pclk = true) :
    Reaches [i] s (Machine.phaseAt s n .s2) :=
  h.reaches hi.2 fun r => by
    rw [nibbleStep_of_s1 (by exact hsub)]
    exact waitClockHigh_of_high hi.1 hhigh

theorem Awaiting.reaches_s3 (h : Awaiting s) (hrst : ∀ i ∈ l, i.rst = false) (hl : l.length = s.cfg.tSettle + 1) :
    Reaches l (Machine.phaseAt s n .s2) (Machine.phaseAt s n .s3) :=
  (h.phaseAt n .s2).reaches_after_wait (.inl ⟨rfl, rfl⟩) hrst hl

theorem Awaiting.reaches_s4 (h : Awaiting s) (hrst : i.rst = false) :
    Reaches [i] (Machine.phaseAt s n .s3) (Machine.phaseAt s n .s4) :=
  (h.phaseAt n .s3).reaches hrst fun _ => nibbleStep_of_s3 rfl

/-- The nibble on the data lines in `S4`. -/
theorem Awaiting.reaches_s5a (h : Awaiting s) (hrst : i.rst = false) (hd : i.d = n) :
    Reaches [i] (Machine.phaseAt s n .s4) (Machine.phaseAt s n .s5a) :=
  (h.phaseAt n .s4).reaches hrst fun r => by
    rw [nibbleStep_of_s4 rfl, ← hd]
    simp [Machine.phaseAt, sampleNibble, emit, eventsBefore]

theorem Awaiting.reaches_s5b (h : Awaiting s) (hrst : i.rst = false) :
    Reaches [i] (Machine.phaseAt s n .s5a) (Machine.phaseAt s n .s5b) :=
  (h.phaseAt n .s5a).reaches hrst fun r => by
    rw [nibbleStep_of_s5a rfl]
    simp [Machine.phaseAt, ackHigh, emit, eventsBefore]

theorem Awaiting.reaches_s5c (h : Awaiting s) (hrst : ∀ i ∈ l, i.rst = false) (hl : l.length = s.cfg.tAck + 1) :
    Reaches l (Machine.phaseAt s n .s5b) (Machine.phaseAt s n .s5c) :=
  (h.phaseAt n .s5b).reaches_after_wait (.inr ⟨rfl, rfl⟩) hrst hl

theorem Awaiting.reaches_s6 (h : Awaiting s) (hrst : i.rst = false) :
    Reaches [i] (Machine.phaseAt s n .s5c) (Machine.phaseAt s n .s6) :=
  (h.phaseAt n .s5c).reaches hrst fun r => by
    rw [nibbleStep_of_s5c rfl]
    simp [Machine.phaseAt, ackLow, emit, eventsBefore]

/-! ### A whole nibble phase -/

/-- From `S1` with the clock high until `ack` has risen. -/
theorem Awaiting.reaches_ack_rise (h : Awaiting s) (hsub : s.sub = .s1) (hl : ∀ i ∈ l, Undisturbed i)
    (hheld : ∀ i ∈ l, i.pclk = true ∧ i.d = n) (hlength : l.length = s.cfg.tSettle + 5) :
    Reaches l s (Machine.phaseAt s n .s5b) := by
  have hsplit : l.length = 1 + (s.cfg.tSettle + 1 + 3) := by omega
  obtain ⟨first, l, rfl, hfirst, hrest⟩ := exists_append_of_length hsplit
  obtain ⟨wait, last, rfl, hwait, hlast⟩ := exists_append_of_length hrest
  obtain ⟨i, rfl⟩ := List.length_eq_one_iff.1 hfirst
  obtain ⟨j₃, j₄, j₅, rfl⟩ := List.length_eq_three.1 hlast
  simp only [List.forall_mem_append, List.forall_mem_cons] at hl hheld
  obtain ⟨⟨hi, -⟩, hquiet, hj₃, hj₄, hj₅, -⟩ := hl
  obtain ⟨⟨⟨hpclk, -⟩, -⟩, -, -, ⟨-, hd⟩, -⟩ := hheld
  have hsettled := h.reaches_s3 (n := n) (fun i hi => (hquiet i hi).2) hwait
  exact (h.reaches_s2 hsub hi hpclk).append
    (hsettled.append ((h.reaches_s4 hj₃.2).cons ((h.reaches_s5a hj₄.2 hd).cons (h.reaches_s5b hj₅.2))))

/-- While `ack` is 1. -/
theorem Awaiting.reaches_ack_fall (h : Awaiting s) (hl : ∀ i ∈ l, Undisturbed i) (hlength : l.length = s.cfg.tAck + 2) :
    Reaches l (Machine.phaseAt s n .s5b) (Machine.phaseAt s n .s6) := by
  have hsplit : l.length = s.cfg.tAck + 1 + 1 := hlength
  obtain ⟨hold, last, rfl, hhold, hlast⟩ := exists_append_of_length hsplit
  obtain ⟨i, rfl⟩ := List.length_eq_one_iff.1 hlast
  simp only [List.forall_mem_append, List.forall_mem_singleton] at hl
  obtain ⟨hquiet, hi⟩ := hl
  exact (h.reaches_s5c (fun i hi => (hquiet i hi).2) hhold).append (h.reaches_s6 hi.2)

/-- What a nibble phase of `s` leaves that takes `n`. -/
def afterNibble (s : State) (n : Nibble) : State := advance (phaseAt s n .s6)

/-- On well-kept levels the phase takes its nibble, however long the block waits for the clock. -/
theorem Awaiting.reaches_afterNibble (h : Awaiting s) (hsub : s.sub = .s1) (hl : NibbleLevels s.cfg n l) :
    Reaches l s (afterNibble s n) := by
  obtain ⟨low, held, acked, high, last, rfl, hquiet, hlow, hheld, hheld', hacked, hhigh, hlast⟩ := hl
  simp only [List.forall_mem_append, List.forall_mem_singleton] at hquiet
  obtain ⟨⟨⟨⟨hlow', hheld''⟩, hacked'⟩, hhigh'⟩, hlast'⟩ := hquiet
  have hwait : Reaches low s s := reaches_of_stays fun i hi => h.reaches_clock_low hsub (hlow' i hi) (hlow i hi)
  have hrise : Reaches held s (Machine.phaseAt s n .s5b) := h.reaches_ack_rise hsub hheld'' hheld' hheld
  have hfall : Reaches acked _ (Machine.phaseAt s n .s6) := h.reaches_ack_fall hacked' hacked
  have hstay : Reaches high (Machine.phaseAt s n .s6) _ :=
    reaches_of_stays fun i hi => (h.phaseAt n .s6).reaches_clock_high rfl (hhigh' i hi) (hhigh i hi)
  exact (((hwait.append hrise).append hfall).append hstay).append ((h.phaseAt n .s6).reaches_advance rfl hlast' hlast)

/-! ### Whole bytes -/

/-- What the two nibble phases of byte `v`, a byte before the last, leave of `s`. -/
def afterByte (s : State) (v : Byte) : State :=
  { s with
    sub := .s1, cnt := 0, status := s.bi, acc := v, ack := false, ni := 0, pkt := s.pkt.setByte s.bi v, bi := s.bi + 1
    history := s.history ++ byteEvents s.bi v }

/-- What those of the last byte leave. -/
def afterLastByte (s : State) (v : Byte) : State :=
  { s with
    st := .done, sub := .s6, ni := 1, cnt := 0, status := s.bi, acc := v, ack := false, pkt := s.pkt.setByte s.bi v
    history := s.history ++ byteEvents s.bi v }

theorem afterNibble_first (h : s.ni = 0) : afterNibble s n = { phaseAt s n .s6 with ni := 1, sub := .s1 } :=
  advance_of_first (by exact h)

/-- After both nibbles the accumulator holds the byte (R84, R112). -/
theorem afterNibble_second (h : s.ni = 0) (v : Byte) :
    afterNibble (afterNibble s (lowNibble v)) (highNibble v) = advance { s with
      sub := .s6, cnt := 0, status := s.bi, acc := v, ack := false, ni := 1
      history := s.history ++ byteEvents s.bi v } := by
  have hacc : accumulate (accumulate s.acc 0#1 (lowNibble v)) 1#1 (highNibble v) = v :=
    (accumulate_both _ _ _).trans (joinNibbles_low_high v)
  rw [afterNibble, afterNibble_first h]
  simp [phaseAt, h, hacc, eventsBefore, byteEvents, nibbleEvents]

theorem afterNibble_eq_afterByte (h : s.ni = 0) (hbi : s.bi.toNat < 6) (v : Byte) :
    afterNibble (afterNibble s (lowNibble v)) (highNibble v) = afterByte s v := by
  rw [afterNibble_second h]
  exact advance_of_second rfl hbi

theorem afterNibble_eq_afterLastByte (h : s.ni = 0) (hbi : s.bi.toNat = 6) (v : Byte) :
    afterNibble (afterNibble s (lowNibble v)) (highNibble v) = afterLastByte s v := by
  rw [afterNibble_second h]
  exact advance_of_full rfl hbi.ge

/-- The levels of two nibbles and more: the block takes the two. -/
theorem Awaiting.reaches_two_nibbles (h : Awaiting s) (hsub : s.sub = .s1) (hni : s.ni = 0) {n₀ n₁ : Nibble}
    {rest : List Nibble} (hl : NibbleListLevels s.cfg (n₀ :: n₁ :: rest) l) :
    ∃ l₁ l₂, l = l₁ ++ l₂ ∧ Reaches l₁ s (afterNibble (afterNibble s n₀) n₁) ∧ NibbleListLevels s.cfg rest l₂ := by
  obtain ⟨l₁, -, rfl, hn₀, l₂, l₃, rfl, hn₁, hrest⟩ := hl
  have hfirst := h.reaches_afterNibble hsub hn₀
  have hsecond : Reaches l₂ (afterNibble s n₀) (afterNibble (afterNibble s n₀) n₁) := by
    rw [afterNibble_first hni]
    exact Awaiting.reaches_afterNibble ⟨h.launch, h.deploy, h.st⟩ rfl hn₁
  exact ⟨l₁ ++ l₂, l₃, by rw [List.append_assoc], hfirst.append hsecond, hrest⟩

/-- The levels of some bytes before the last, and more nibbles: the block takes the bytes, one after the other. -/
theorem Awaiting.reaches_bytes (h : Awaiting s) (hsub : s.sub = .s1) (hni : s.ni = 0) {vs : List Byte}
    (hbi : s.bi.toNat + vs.length ≤ 6) {rest : List Nibble}
    (hl : NibbleListLevels s.cfg ((vs.flatMap fun v => [lowNibble v, highNibble v]) ++ rest) l) :
    ∃ l₁ l₂, l = l₁ ++ l₂ ∧ Reaches l₁ s (vs.foldl afterByte s) ∧ NibbleListLevels s.cfg rest l₂ := by
  induction vs generalizing s l with
  | nil => exact ⟨[], l, rfl, .nil s, hl⟩
  | cons v vs ih =>
    rw [List.length_cons] at hbi
    have hlt : s.bi.toNat < 6 := by omega
    have hrise := bi_add_one_toNat hlt
    obtain ⟨l₁, l₂, rfl, hbyte, hl₂⟩ := h.reaches_two_nibbles hsub hni hl
    rw [afterNibble_eq_afterByte hni hlt] at hbyte
    obtain ⟨l₃, l₄, rfl, hbytes, hl₄⟩ :=
      ih (s := afterByte s v) ⟨h.launch, h.deploy, h.st⟩ rfl rfl (by simp only [afterByte, hrise]; omega) hl₂
    exact ⟨l₁ ++ l₃, l₄, by rw [List.append_assoc], hbyte.append hbytes, hl₄⟩

theorem Awaiting.reaches_afterLastByte (h : Awaiting s) (hsub : s.sub = .s1) (hni : s.ni = 0) (hbi : s.bi.toNat = 6)
    {v : Byte} (hl : NibbleListLevels s.cfg [lowNibble v, highNibble v] l) : Reaches l s (afterLastByte s v) := by
  obtain ⟨l₁, l₂, rfl, hbyte, rfl⟩ := h.reaches_two_nibbles hsub hni hl
  rw [afterNibble_eq_afterLastByte hni hbi] at hbyte
  simpa using hbyte

/-! ### A whole transaction -/

/-- What the start of a transaction leaves of `s` (R102). -/
def afterStart (s : State) : State :=
  { s with
    st := .awaitNibble, bi := 0, ni := 0, sub := .s1, pkt := Packet.zero, acc := 0
    history := s.history ++ [.txnStart] }

/-- What a transaction of packet `b` leaves of `s`, before its dispatch. -/
def packetComplete (s : State) (b : Packet) : State :=
  { s with
    st := .done, sub := .s6, bi := 6, ni := 1, acc := b.b6, cnt := 0, pkt := b, ack := false, status := 6
    history := s.history ++ [.txnStart] ++ byteEvents 0 b.b0 ++ byteEvents 1 b.b1 ++ byteEvents 2 b.b2 ++
      byteEvents 3 b.b3 ++ byteEvents 4 b.b4 ++ byteEvents 5 b.b5 ++ byteEvents 6 b.b6 }

/-- The seven bytes, each written to its slot. -/
theorem afterLastByte_foldl (s : State) (b : Packet) :
    afterLastByte ([b.b0, b.b1, b.b2, b.b3, b.b4, b.b5].foldl afterByte (afterStart s)) b.b6 = packetComplete s b := by
  simp [afterLastByte, afterByte, afterStart, packetComplete, Packet.setByte]

theorem packetComplete_history (s : State) (b : Packet) :
    (packetComplete s b).history ++ [.packet b] = s.history ++ transactionEvents b := by
  simp [packetComplete, transactionEvents]

/-- The polls of `Idle` between transactions, and the one that reads `start` low. -/
theorem reaches_afterStart (hlaunch : LaunchOk s.cfg) (hdeploy : s.cfg.deploy ≠ .relayReceiver) (hst : s.st = .idle)
    (hl : ∀ i ∈ l, Undisturbed i ∧ i.start = true) (hi : Undisturbed i) (hstart : i.start = false) :
    Reaches (l ++ [i]) s (afterStart s) := by
  have hpoll {j : Inputs} {t : State} (hrst : j.rst = false)
      (h : ∀ r, pollIdle { s with inp := j, script := r } = { t with inp := j, script := r }) : Reaches [j] s t :=
    reaches_of_blockMove hlaunch fun r => h r ▸ .poll hrst hdeploy hst
  refine Reaches.append (reaches_of_stays fun j hj => ?_) (hpoll hi.2 fun _ => ?_)
  · obtain ⟨hquiet, hhigh⟩ := hl j hj
    exact hpoll hquiet.2 fun _ => pollIdle_of_no_start (by exact hquiet.1) hhigh
  · exact pollIdle_of_start (by exact hi.1) hstart

theorem reaches_packetComplete {b : Packet} (h : Awaiting (afterStart s)) (hl : NibbleListLevels s.cfg b.nibbles l) :
    Reaches l (afterStart s) (packetComplete s b) := by
  have hnibbles : b.nibbles = ([b.b0, b.b1, b.b2, b.b3, b.b4, b.b5].flatMap fun v => [lowNibble v, highNibble v]) ++
      [lowNibble b.b6, highNibble b.b6] := rfl
  rw [hnibbles] at hl
  have hbi : (afterStart s).bi.toNat + [b.b0, b.b1, b.b2, b.b3, b.b4, b.b5].length ≤ 6 := Nat.le_refl 6
  obtain ⟨l₁, l₂, rfl, hsix, hl₂⟩ := h.reaches_bytes rfl rfl hbi hl
  have hlast := Awaiting.reaches_afterLastByte
    (s := [b.b0, b.b1, b.b2, b.b3, b.b4, b.b5].foldl afterByte (afterStart s)) ⟨h.launch, h.deploy, rfl⟩ rfl rfl rfl hl₂
  rw [afterLastByte_foldl] at hlast
  exact hsix.append hlast

/-- The whole transaction but its dispatch. -/
theorem reaches_transaction {b : Packet} (hlaunch : LaunchOk s.cfg) (hdeploy : s.cfg.deploy ≠ .relayReceiver)
    (hst : s.st = .idle) (hl : TransactionLevels s.cfg b l) :
    ∃ l' last, l = l' ++ [last] ∧ last.rst = false ∧ Reaches l' s (packetComplete s b) := by
  obtain ⟨between, nibbles, first, last, rfl, hbetween, hfirst, hstart, hnibbles, hlast⟩ := hl
  have hstarted := reaches_afterStart hlaunch hdeploy hst hbetween hfirst hstart
  exact ⟨_, last, rfl, hlast, hstarted.append (reaches_packetComplete ⟨hlaunch, hdeploy, rfl⟩ hnibbles)⟩

/-- The dispatch wired `Local`: its command leaves the surface and the events that it leaves of any state with the same
configuration, surface, fill counter and history. -/
theorem step_dispatch_local {s' : State} (hlive : LinesLive s) (hst : s.st = .done)
    (hlocal : s.cfg.deploy = .localDeploy) (hcfg : s'.cfg = s.cfg) (hfills : s'.fills = s.fills)
    (hsurf : s'.surf = s.surf) (hhistory : s'.history = s.history ++ [.packet s.pkt]) :
    ∃ t u, step s = .next (nextLevels t) ∧
      t = { s with st := .idle, surf := t.surf, history := t.history, fills := t.fills } ∧
      exec (decode s.pkt) s' = .next u ∧ t.surf = u.surf ∧ t.history = u.history := by
  obtain ⟨hlaunch, hrst, -⟩ := hlive
  obtain ⟨v, hexec⟩ := exec_completes (s := emit (.packet s.pkt) s) hlaunch (decode s.pkt)
  obtain ⟨m, es, hexec', hes, hm⟩ := exec_transfer (s' := s') hexec hcfg hfills
  refine ⟨{ v with st := .idle }, _, step_of_move hlaunch (.dispatchRuns hrst hst hlocal hexec), ?_, hexec',
    (hm hsurf).symm, hes.trans (by rw [hhistory]; rfl)⟩
  rw [exec_frame hexec]
  rfl

end

/-! ### The statements, settled -/

/-- Settles O51: the segments of the phase, one after the other. -/
theorem nibblePhaseTakesItsNibble : Obligations.NibblePhaseTakesItsNibble := by
  unfold Obligations.NibblePhaseTakesItsNibble
  intro s n l rest hlaunch hdeploy hst hsub hl hrest hlevels
  have hreach := Awaiting.reaches_afterNibble ⟨hlaunch, hdeploy, hst⟩ hsub hl rest hrest
  rw [← hlevels, withLevels_levels] at hreach
  exact hreach

/-- Settles O52: the transaction leaves its packet in the buffer and its events in the history; the dispatch that
follows shows the packet, and wired `Local` runs its command, which reads nothing that the transaction has changed. -/
theorem transactionDeliversThePacketSent : Obligations.TransactionDeliversThePacketSent := by
  unfold Obligations.TransactionDeliversThePacketSent
  intro s b l rest hlaunch hdeploy hst hl hrest hlevels
  obtain ⟨l, last, rfl, hrst, hreach⟩ := reaches_transaction hlaunch hdeploy hst hl
  have hrun := hreach ([last] ++ rest) (by simp)
  rw [← List.append_assoc, ← hlevels, withLevels_levels] at hrun
  obtain ⟨j, r, rfl⟩ := List.exists_cons_of_ne_nil hrest
  rw [List.length_append]
  cases hwiring : s.cfg.deploy with
  | relayReceiver => exact absurd hwiring hdeploy
  | relaySender =>
    have hmove : BlockMove (withLevels ([last] ++ j :: r) (packetComplete s b)) _ := .dispatchShows hrst rfl hwiring
    exact ⟨_, run_succ_of_run hrun (step_of_move hlaunch hmove), rfl, rfl, rfl, rfl, rfl,
      fun _ => ⟨rfl, packetComplete_history s b⟩, nofun⟩
  | localDeploy =>
    obtain ⟨t, u, hstep, hframe, hexec, hsurf, hhistory⟩ := step_dispatch_local
      (s := withLevels ([last] ++ j :: r) (packetComplete s b))
      (s' := { s with history := s.history ++ transactionEvents b })
      ⟨hlaunch, hrst, hdeploy⟩ rfl hwiring rfl rfl rfl (packetComplete_history s b).symm
    have hrun' := run_succ_of_run hrun hstep
    rw [hframe] at hrun'
    exact ⟨_, hrun', rfl, rfl, rfl, rfl, rfl, nofun, fun _ => ⟨u, hexec, hsurf, hhistory⟩⟩

end Sys2Proof.Machine
end
